-- ==== Sys2Proof/Word.lean ====
section
/-! DEFINITION. The word, the byte and the register number of the cs454-warmup core. -/

namespace Sys2Proof

/-- A word: "an unsigned 32-bit value; the universal unit of both code and data" (R9, R13). -/
abbrev Word := BitVec 32

/-- One byte of the input or the output stream, 0 to 255 (R30, R31). -/
abbrev Byte := BitVec 8

/-- A register number: 3 bits, all eight values legal in every field (R21, R87). -/
abbrev RegId := Fin 8

/-- The 25-bit unsigned immediate of LDI (R82, R86). -/
abbrev Imm25 := BitVec 25

end Sys2Proof
end

