-- ==== Sys2Proof/Syntax.lean ====
section
/-! DEFINITION. The instructions: one constructor for each row of the opcode table (R83, R88). -/

namespace Sys2Proof

/-- The sixteen outcomes of the decoder (R88). A field an instruction does not name is no operand of
its constructor: it is ignored (R85). -/
inductive Instr where
  /-- Opcode 0: if `R[c] != 0` then `R[a] <- R[b]` (R130). -/
  | mov (a b c : RegId)
  /-- Opcode 1: `R[a] <- array[R[b]][R[c]]` (R140). -/
  | lda (a b c : RegId)
  /-- Opcode 2: `array[R[a]][R[b]] <- R[c]` (R141). -/
  | sta (a b c : RegId)
  /-- Opcode 3: `R[a] <- R[b] + R[c]` (R150). -/
  | add (a b c : RegId)
  /-- Opcode 4: `R[a] <- R[b] * R[c]` (R151). -/
  | mul (a b c : RegId)
  /-- Opcode 5: `R[a] <- floor(R[b] / R[c])`, unsigned (R152). -/
  | div (a b c : RegId)
  /-- Opcode 6: `R[a] <- NOT (R[b] AND R[c])` (R153). -/
  | nan (a b c : RegId)
  /-- Opcode 7: halt (R200). -/
  | hlt
  /-- Opcode 8: `R[b] <- new array of R[c] words` (R174). -/
  | new (b c : RegId)
  /-- Opcode 9: free the array `R[c]` (R175). -/
  | del (c : RegId)
  /-- Opcode 10: output the byte `R[c]` (R190). -/
  | out (c : RegId)
  /-- Opcode 11: `R[c] <- next input byte`, or the EOF value (R191). -/
  | inp (c : RegId)
  /-- Opcode 12: if `R[b] != 0` run a copy of the array `R[b]`; `pc <- R[c]` (R201). -/
  | prg (b c : RegId)
  /-- Opcode 13: `R[r] <- imm`, zero-extended (R131). -/
  | ldi (r : RegId) (imm : Imm25)
  /-- Opcode 14: undefined, raises invalid-instruction (R202). -/
  | invalid14
  /-- Opcode 15: undefined, raises invalid-instruction (R202). -/
  | invalid15
deriving DecidableEq, Repr

/-- The opcode of an instruction, `W[31:28]` of its words (R83). -/
def Instr.opcode : Instr → Nat
  | .mov _ _ _ => 0
  | .lda _ _ _ => 1
  | .sta _ _ _ => 2
  | .add _ _ _ => 3
  | .mul _ _ _ => 4
  | .div _ _ _ => 5
  | .nan _ _ _ => 6
  | .hlt => 7
  | .new _ _ => 8
  | .del _ => 9
  | .out _ => 10
  | .inp _ => 11
  | .prg _ _ => 12
  | .ldi _ _ => 13
  | .invalid14 => 14
  | .invalid15 => 15

end Sys2Proof
end

