-- ==== Sys2Proof/Decode.lean ====
section
/-! DEFINITION. The instruction decoder, total on 32-bit words (R88), and the canonical encoder (R95). -/

namespace Sys2Proof

/-- `W[hi:lo]` = `floor(W / 2^lo) mod 2^(hi-lo+1)` (R8). -/
def slice (w : Word) (hi lo : Nat) : Nat := w.toNat / 2 ^ lo % 2 ^ (hi - lo + 1)

/-- The opcode field `W[31:28]` (R81). -/
def opcodeOf (w : Word) : Nat := slice w 31 28

/-- Field A, `W[8:6]` (R81). -/
def fieldA (w : Word) : RegId := Fin.ofNat 8 (slice w 8 6)

/-- Field B, `W[5:3]` (R81). -/
def fieldB (w : Word) : RegId := Fin.ofNat 8 (slice w 5 3)

/-- Field C, `W[2:0]` (R81). -/
def fieldC (w : Word) : RegId := Fin.ofNat 8 (slice w 2 0)

/-- The LDI register field `W[27:25]` (R82). -/
def fieldLdiReg (w : Word) : RegId := Fin.ofNat 8 (slice w 27 25)

/-- The LDI immediate `W[24:0]` (R82). -/
def fieldLdiImm (w : Word) : Imm25 := BitVec.ofNat 25 (slice w 24 0)

/-- `Decode(W)` of R88. Every word decodes, to one of sixteen outcomes; the two undefined opcodes are
outcomes of their own and the fault is raised by executing them. The opcode is below 16, so the last
arm is opcode 15 alone. -/
def decode (w : Word) : Instr :=
  match opcodeOf w with
  | 0 => .mov (fieldA w) (fieldB w) (fieldC w)
  | 1 => .lda (fieldA w) (fieldB w) (fieldC w)
  | 2 => .sta (fieldA w) (fieldB w) (fieldC w)
  | 3 => .add (fieldA w) (fieldB w) (fieldC w)
  | 4 => .mul (fieldA w) (fieldB w) (fieldC w)
  | 5 => .div (fieldA w) (fieldB w) (fieldC w)
  | 6 => .nan (fieldA w) (fieldB w) (fieldC w)
  | 7 => .hlt
  | 8 => .new (fieldB w) (fieldC w)
  | 9 => .del (fieldC w)
  | 10 => .out (fieldC w)
  | 11 => .inp (fieldC w)
  | 12 => .prg (fieldB w) (fieldC w)
  | 13 => .ldi (fieldLdiReg w) (fieldLdiImm w)
  | 14 => .invalid14
  | _ => .invalid15

/-- `Encode(op, A, B, C) = op*2^28 + A*64 + B*8 + C` (R95). -/
def encodeR (op : Nat) (a b c : RegId) : Word :=
  BitVec.ofNat 32 (op * 2 ^ 28 + a.val * 64 + b.val * 8 + c.val)

/-- `Encode(LDI, r, imm) = 0xD0000000 + r*0x02000000 + imm` (R95). -/
def encodeI (r : RegId) (imm : Imm25) : Word :=
  BitVec.ofNat 32 (0xD0000000 + r.val * 0x02000000 + imm.toNat)

/-- The canonical word of an instruction: ignored bits and unused fields are 0 (R95). -/
def encode : Instr → Word
  | .mov a b c => encodeR 0 a b c
  | .lda a b c => encodeR 1 a b c
  | .sta a b c => encodeR 2 a b c
  | .add a b c => encodeR 3 a b c
  | .mul a b c => encodeR 4 a b c
  | .div a b c => encodeR 5 a b c
  | .nan a b c => encodeR 6 a b c
  | .hlt => encodeR 7 0 0 0
  | .new b c => encodeR 8 0 b c
  | .del c => encodeR 9 0 0 c
  | .out c => encodeR 10 0 0 c
  | .inp c => encodeR 11 0 0 c
  | .prg b c => encodeR 12 0 b c
  | .ldi r imm => encodeI r imm
  | .invalid14 => encodeR 14 0 0 0
  | .invalid15 => encodeR 15 0 0 0

/-- The instruction the decoder reads from a word whose low `nbits` bits are `w` and whose other bits
are 0. An instruction is exactly one word (R80), so more than 32 bits are no instruction. -/
def decodeTableWord (nbits w : Nat) : Option Instr :=
  if nbits ≤ 32 then some (decode (BitVec.ofNat 32 (w % 2 ^ nbits))) else none

end Sys2Proof
end

