-- ==== Sys2Proof/Machine/KeyMap.lean ====
section
/-! DEFINITION. Partial maps from numbers as lists of pairs in one canonical form: keys strictly rising.
The array table and the storage of an array are kept in this form (R24; log entry 1). -/

namespace Sys2Proof.Machine

/-- The canonical form: keys strictly rising, so no key twice. -/
abbrev KeyMap.Rising {α : Type} (m : List (Nat × α)) : Prop := (m.map Prod.fst).Pairwise (· < ·)

/-- The value at a key. -/
def KeyMap.get {α : Type} : List (Nat × α) → Nat → Option α
  | [], _ => none
  | (j, v) :: rest, k => if j = k then some v else KeyMap.get rest k

/-- The map with `v` at the key `k`. -/
def KeyMap.put {α : Type} : List (Nat × α) → Nat → α → List (Nat × α)
  | [], k, v => [(k, v)]
  | (j, u) :: rest, k, v =>
    if k < j then (k, v) :: (j, u) :: rest
    else if j = k then (k, v) :: rest
    else (j, u) :: KeyMap.put rest k v

/-- The map with nothing at the key `k`. -/
def KeyMap.del {α : Type} (m : List (Nat × α)) (k : Nat) : List (Nat × α) :=
  m.filter fun p => p.1 != k

end Sys2Proof.Machine
end

