-- ==== Sys2Proof/Config.lean ====
section
/-! DEFINITION. What is fixed for the machine: the constants of R6 and the parameters of R7. -/

namespace Sys2Proof.Config

/-- The parameter MEM_WORDS of R7, R66: the total words of array storage, "a natural number or
`unbounded`". -/
inductive StorageLimit where
  /-- "unbounded (bounded only by memory)": the default (D6). -/
  | unbounded
  /-- A finite store of `n` words. -/
  | words (n : Nat)
deriving DecidableEq, Repr

/-- How many identifiers there are: the capacity never exceeds 2^32 (R27). -/
def maxCapacity : Nat := 2 ^ 32

/-- CAP0, the table capacity at reset: only identifier 0 exists (R7, R36, D5). -/
def resetCapacity : Nat := 1

/-- The EOF value that INP writes at end of input (R6, R191). -/
def eofWord : Word := 0xFFFFFFFF

/-- The largest value OUT accepts (R6, R190). -/
def maxByte : Nat := 255

/-- The longest program image, in words: its length must be a word (R23, R253, D11). -/
def maxImageWords : Nat := 2 ^ 32 - 1

end Sys2Proof.Config
end

