-- ==== Sys2Proof/Machine/State.lean ====
section
/-! DEFINITION. The state of the core as plain data (R20), its fault kinds (R220) and its state after
reset (R36). Log entries: 1, 2, 3, 6, 7, 8, 9, 10. -/

namespace Sys2Proof.Machine

/-- The eight fault kinds (R220). A fault is TAKEN (log entry 3): the step that raises it answers a next
state whose `status` is `faulted` of the kind, as R230 describes; no step answers `Outcome.fault`.
Each kind is the spec's own, so raising it is the hardware's behaviour; where this can be safe or
unsafe is said at the kind. -/
inductive Fault where
  /-- Raised by opcodes 14 and 15 (R222). Safe: the spec's own fault. -/
  | invalidInstruction
  /-- Raised by LDA and STA: identifier not active, or index not below the length (R223). Safe. -/
  | inactiveArray
  /-- Raised by DEL: identifier 0 or not active (R224). Safe. -/
  | badDelete
  /-- Raised by DIV: the divisor is 0 (R225). Safe. -/
  | divisionByZero
  /-- Raised by PRG: a nonzero identifier that is not active (R226). Safe. -/
  | programFromInactive
  /-- Raised by OUT: a value above 255 (R227). Safe. -/
  | characterRange
  /-- Raised by the fetch: the pc is not below the length of the image (R228). Safe. -/
  | pcOutOfBounds
  /-- Raised by NEW and PRG: no identifier or no storage left (R229). Safe: it "errs toward
  unprovable"; with the limit `unbounded` and an identifier left it never occurs (log entry 10). -/
  | allocExhausted
deriving DecidableEq, Repr

/-- Why a step has no meaning. -/
inductive Refusal where
  /-- Raised by no one: every instruction has its meaning. It would be raised by an arm of `exec` whose
  instruction is not modelled yet, and would be safe. -/
  | notModelled (mnemonic : String)
deriving DecidableEq, Repr

/-- The run status (R29). -/
inductive Status where
  /-- From reset until the run ends. -/
  | running
  /-- After HLT: "terminate successfully". -/
  | halted
  /-- After a fault of the kind. -/
  | faulted (kind : Fault)
deriving DecidableEq, Repr

/-- An array descriptor `(length, storage)` (R24). The storage lists the elements that are not 0 as
(index, word) pairs, indices strictly rising; an index below the length that is not listed holds 0, the
value every element has "at allocation time" (log entries 1 and 2). -/
structure Descriptor where
  length  : Word
  storage : List (Nat × Word)
deriving DecidableEq, Repr

/-- The array space (R50). `image` is `ARR[0]`, "a logically separate array that always shadows
identifier 0" (R2, R23); `arrays` maps every other active identifier to its descriptor, identifiers
strictly rising (R24, R25). -/
structure Memory where
  image  : Descriptor
  arrays : List (Nat × Descriptor)
deriving DecidableEq, Repr

/-- The input stream as the core's port sees it (R30, R193, R195): the bytes the host has delivered and
no INP has read yet, and whether the host has signalled the end of input behind them (log entry 9). -/
structure Input where
  pending : List Byte
  ended   : Bool
deriving DecidableEq, Repr

/-- The state of the core: the tuple of R20, and two fields of the model's own that no instruction
changes, `outReady` (log entry 6) and `memWords` (log entry 10). -/
structure State where
  /-- `R[0]` to `R[7]` (R21). -/
  regs     : Vector Word 8
  /-- The program counter, a word index into the image (R22). -/
  pc       : Word
  /-- `ARR`: the image and the array table (R23, R24). -/
  mem      : Memory
  /-- `FREE`: the free chain, head first; the head is the free cursor (R26). -/
  free     : List Word
  /-- `CAP`: the table capacity (R27). -/
  cap      : Nat
  /-- `STATUS` (R29). -/
  status   : Status
  /-- `IN` (R30). -/
  input    : Input
  /-- `OUTS`: the bytes emitted, oldest first (R31). -/
  outs     : List Byte
  /-- Whether the host's sink takes a byte now (R194, R195). -/
  outReady : Bool
  /-- The parameter MEM_WORDS (R7, R66). -/
  memWords : Config.StorageLimit
deriving DecidableEq, Repr

/-- The empty image: the load of a stream of no bytes (R254). -/
def Descriptor.empty : Descriptor := { length := 0, storage := [] }

/-- The machine right after reset (R36, R250): registers and pc 0, only identifier 0 active, the chain
empty, capacity 1, running, nothing emitted. Nothing has been loaded (log entry 7) and the host has
delivered no input and signalled no end (log entry 8). -/
def State.reset : State where
  regs := Vector.replicate 8 0
  pc := 0
  mem := { image := Descriptor.empty, arrays := [] }
  free := []
  cap := Config.resetCapacity
  status := .running
  input := { pending := [], ended := false }
  outs := []
  outReady := true
  memWords := .unbounded

/-- What a step and a meaning answer. -/
abbrev Result := Host.Outcome State Fault Refusal

end Sys2Proof.Machine
end

