-- ==== Sys2Proof/Machine/Operands.lean ====
section
/-! DEFINITION. The operand forms: a register (R87), the LDI immediate (R86), and the byte forms of the
two streams (R190, R191). -/

namespace Sys2Proof.Machine

/-- `R[i]`: the register a field selects; no register is hardwired (R10, R21, R87). -/
def State.reg (s : State) (r : RegId) : Word := s.regs[r.val]

/-- `R[i] <- v` (R10). -/
def State.setReg (s : State) (r : RegId) (v : Word) : State := { s with regs := s.regs.set r.val v }

/-- `zext_32(W[24:0])`: the immediate is not sign-extended, shifted or scaled (R86). -/
def immWord (imm : Imm25) : Word := imm.setWidth 32

/-- `zext_32(x)` of an input byte: 0 to 255 (R191). -/
def byteWord (b : Byte) : Word := b.setWidth 32

/-- Whether OUT accepts a value: it is not above 255; a larger one is not truncated (R190). -/
def isByte (v : Word) : Bool := v.toNat ≤ Config.maxByte

/-- The byte of a value that OUT accepts (R190). -/
def lowByte (v : Word) : Byte := v.setWidth 8

end Sys2Proof.Machine
end

