-- ==== Sys2Proof/Machine/Ops.lean ====
section
/-! DEFINITION. The shared operations: the pc, raising a fault, the array space, the array manager and
the byte interface. Log entries: 1, 2, 3, 5, 6, 10, 11, 12, 13. -/

namespace Sys2Proof.Machine

/-! ### The pc and the run status -/

/-- `pc <- pc + 1`, the increment at fetch (R22, R111). A meaning takes the state before the step and
makes this increment itself (log entry 12). -/
def State.advance (s : State) : State := { s with pc := s.pc + 1 }

/-- `pc <- t` (R10). Only PRG uses it (R22). -/
def State.jump (s : State) (t : Word) : State := { s with pc := t }

/-- `STATUS <- x` (R29). -/
def State.setStatus (s : State) (x : Status) : State := { s with status := x }

/-- Replace the array space. -/
def State.setMem (s : State) (m : Memory) : State := { s with mem := m }

/-- Replace the free chain and the capacity. -/
def State.setChain (s : State) (free : List Word) (cap : Nat) : State :=
  { s with free := free, cap := cap }

/-- Replace what is left of the input stream. -/
def State.setInput (s : State) (inp : Input) : State := { s with input := inp }

/-- `raise Fault(kind)` (R230, R232): the status becomes `FAULTED(kind)` and nothing else changes. The
caller passes the state whose pc the fault leaves: with the pc incremented, but for pc-out-of-bounds.
There is no handler, no saved pc and no return: only reset leaves this status (log entry 3). -/
def raise (k : Fault) (s : State) : Result := .next (s.setStatus (.faulted k))

/-- A hold: "the step not being taken at all", every component as it was (R194, R114; log entry 5). -/
def hold (s : State) : Result := .next s

/-! ### Descriptors -/

/-- A new array of `n` words, all 0 (R170). -/
def Descriptor.zeros (n : Word) : Descriptor := { length := n, storage := [] }

/-- The word at index `i`: what is listed, else the 0 of allocation (R24; log entry 2). -/
def Descriptor.word (d : Descriptor) (i : Nat) : Word := (KeyMap.get d.storage i).getD 0

/-- The array with `v` at index `i`; the length does not change (R54). A 0 is not listed, so that
arrays with equal words are equal data (log entry 1). -/
def Descriptor.store (d : Descriptor) (i : Nat) (v : Word) : Descriptor :=
  { d with storage := if v = 0 then KeyMap.del d.storage i else KeyMap.put d.storage i v }

/-- The canonical form of an array: indices rising and below the length, no 0 listed (log entry 1). -/
abbrev Descriptor.wf (d : Descriptor) : Prop :=
  KeyMap.Rising d.storage ∧ ∀ p ∈ d.storage, p.1 < d.length.toNat ∧ p.2 ≠ 0

/-! ### The array space -/

/-- The descriptor of an identifier; identifier 0 is the program image (R23, R24). -/
def Memory.find (m : Memory) (id : Word) : Option Descriptor :=
  if id = 0 then some m.image else KeyMap.get m.arrays id.toNat

/-- `Active(id)` (R25). -/
def Memory.active (m : Memory) (id : Word) : Bool := (m.find id).isSome

/-- `Len(id)`, defined for active `id` (R55). -/
def Memory.len (m : Memory) (id : Word) : Option Word := (m.find id).map Descriptor.length

/-- Replace the program image. -/
def Memory.setImage (m : Memory) (d : Descriptor) : Memory := { m with image := d }

/-- Bind an identifier to a descriptor. -/
def Memory.bind (m : Memory) (id : Word) (d : Descriptor) : Memory :=
  if id = 0 then m.setImage d else { m with arrays := KeyMap.put m.arrays id.toNat d }

/-- Remove an identifier other than 0 from the domain of `ARR` (R171). -/
def Memory.unbind (m : Memory) (id : Word) : Memory :=
  { m with arrays := KeyMap.del m.arrays id.toNat }

/-- `Lookup(id, i)` (R52): the descriptor when the identifier is active and the index is below the
length, unsigned; both failures are inactive-array. -/
def Memory.lookup (m : Memory) (id i : Word) : Except Fault Descriptor :=
  match m.find id with
  | none => .error .inactiveArray
  | some d => if i.toNat < d.length.toNat then .ok d else .error .inactiveArray

/-- `MemRead((id, i), 1)` (R53). -/
def Memory.read (m : Memory) (id i : Word) : Except Fault Word :=
  match m.lookup id i with
  | .error k => .error k
  | .ok d => .ok (d.word i.toNat)

/-- `MemWrite((id, i), 1, v)` (R54). Identifier 0 is written like any other (R62). -/
def Memory.write (m : Memory) (id i v : Word) : Except Fault Memory :=
  match m.lookup id i with
  | .error k => .error k
  | .ok d => .ok (m.bind id (d.store i.toNat v))

/-- `USED`: the sum of the lengths of all active arrays, the image included (R39). -/
def Memory.used (m : Memory) : Nat :=
  m.image.length.toNat + (m.arrays.map fun p => p.2.length.toNat).sum

/-- The canonical form of the array space: identifiers rising, each a nonzero 32-bit value, every array
in its own canonical form (log entry 1). -/
abbrev Memory.wf (m : Memory) : Prop :=
  m.image.wf ∧ KeyMap.Rising m.arrays ∧
    ∀ p ∈ m.arrays, 0 < p.1 ∧ p.1 < Config.maxCapacity ∧ p.2.wf

/-! ### The array manager -/

/-- Whether a total of `n` words fits a store (R66, R173). -/
def limitAllows : Config.StorageLimit → Nat → Bool
  | .unbounded, _ => true
  | .words m, n => n ≤ m

/-- Whether a total of `n` words fits the store of this core (R66, R173). -/
def State.fits (s : State) (n : Nat) : Bool := limitAllows s.memWords n

/-- The slots that growth puts on the empty chain: `[CAP+1, ..., 2*CAP-1]` (R170, R172). -/
def newSlots (cap : Nat) : List Word := (List.range' (cap + 1) (cap - 1)).map (BitVec.ofNat 32)

/-- The resource checks of `Allocate`, made before any state changes (R173). -/
def State.canAllocate (s : State) (n : Word) : Bool :=
  !(s.free.isEmpty && Config.maxCapacity ≤ s.cap) && s.fits (s.mem.used + n.toNat)

/-- `Allocate(n)` (R170, R172, R173): the head of the chain if there is one, else the slot `CAP` of the
doubled table (log entries 11 and 13). Answers the identifier and the state. -/
def allocate (n : Word) (s : State) : Except Fault (Word × State) :=
  if s.canAllocate n then
    match s.free with
    | id :: rest => .ok (id, (s.setMem (s.mem.bind id (.zeros n))).setChain rest s.cap)
    | [] =>
      let id := BitVec.ofNat 32 s.cap
      .ok (id, (s.setMem (s.mem.bind id (.zeros n))).setChain (newSlots s.cap) (2 * s.cap))
  else .error .allocExhausted

/-- `Free(id)`: the identifier leaves the domain of `ARR` and becomes the head of the chain (R171). -/
def release (id : Word) (s : State) : State :=
  (s.setMem (s.mem.unbind id)).setChain (id :: s.free) s.cap

/-- The image replacement of PRG with a nonzero identifier (R201, R63): the activity check, then the
storage check `USED + Len(id) - Len(0) > MEM_WORDS`, then the copy. The copy is independent: the source
stays bound to its own descriptor. -/
def installImage (id : Word) (s : State) : Except Fault State :=
  match s.mem.find id with
  | none => .error .programFromInactive
  | some d =>
    if s.fits (s.mem.used + d.length.toNat - s.mem.image.length.toNat) then
      .ok (s.setMem (s.mem.setImage d))
    else .error .allocExhausted

/-! ### The byte interface -/

/-- What `InByte()` meets at the port (R193). -/
inductive Received where
  /-- A byte is there. -/
  | byte (b : Byte)
  /-- The stream is at its end. -/
  | eof
  /-- Neither: INP holds (R194). -/
  | none
deriving DecidableEq, Repr

/-- `InByte()` (R193): what the port gives, and what is left of the stream. The end is permanent and
consumes nothing (R191, D13). -/
def Input.receive (i : Input) : Received × Input :=
  match i.pending with
  | b :: rest => (.byte b, { i with pending := rest })
  | [] => if i.ended then (.eof, i) else (.none, i)

/-- `OutByte(b)`: `OUTS <- OUTS ++ [b]` (R192). -/
def State.emit (s : State) (b : Byte) : State := { s with outs := s.outs ++ [b] }

end Sys2Proof.Machine
end

