-- ==== Sys2Proof/Machine/Alu.lean ====
section
/-! DEFINITION. The ALU: ADD, MUL, DIV, NAN (R150 to R153). All operations are unsigned and overflow is
silent (R154); no flag is written (R155). -/

namespace Sys2Proof.Machine

/-- `R[A] <- f R[B] R[C]` for an operation that cannot fault. -/
def aluOp (f : Word → Word → Word) (a b c : RegId) (s : State) : Result :=
  .next (s.advance.setReg a (f (s.reg b) (s.reg c)))

/-- ADD (R150): the sum modulo 2^32. -/
def execAdd (a b c : RegId) (s : State) : Result :=
  aluOp (fun x y => BitVec.ofNat 32 (x.toNat + y.toNat)) a b c s

/-- MUL (R151): the low 32 bits of the product. -/
def execMul (a b c : RegId) (s : State) : Result :=
  aluOp (fun x y => BitVec.ofNat 32 (x.toNat * y.toNat)) a b c s

/-- DIV (R152): the unsigned quotient; a divisor of 0 faults whatever the dividend is. -/
def execDiv (a b c : RegId) (s : State) : Result :=
  if s.reg c = 0 then raise .divisionByZero s.advance
  else aluOp (fun x y => BitVec.ofNat 32 (x.toNat / y.toNat)) a b c s

/-- NAN (R153): bitwise not-and. -/
def execNan (a b c : RegId) (s : State) : Result :=
  aluOp (fun x y => ~~~(x &&& y)) a b c s

end Sys2Proof.Machine
end

