-- ==== Sys2Proof/Machine/ArrayAccess.lean ====
section
/-! DEFINITION. Array access: LDA and STA (R140, R141). -/

namespace Sys2Proof.Machine

/-- LDA (R140): `R[A] <- MemRead((R[B], R[C]), 1)`. On the fault `R[A]` is not written. -/
def execLda (a b c : RegId) (s : State) : Result :=
  match s.mem.read (s.reg b) (s.reg c) with
  | .error k => raise k s.advance
  | .ok v => .next (s.advance.setReg a v)

/-- STA (R141): `MemWrite((R[A], R[B]), 1, R[C])`; field A names the array. -/
def execSta (a b c : RegId) (s : State) : Result :=
  match s.mem.write (s.reg a) (s.reg b) (s.reg c) with
  | .error k => raise k s.advance
  | .ok m => .next (s.advance.setMem m)

end Sys2Proof.Machine
end

