-- ==== Sys2Proof/Machine/ArrayManager.lean ====
section
/-! DEFINITION. The array manager's instructions: NEW and DEL (R174, R175). -/

namespace Sys2Proof.Machine

/-- NEW (R174): `R[B] <- Allocate(R[C])`; the length is read before the register is written. On
alloc-exhausted neither the table nor `R[B]` changes. -/
def execNew (b c : RegId) (s : State) : Result :=
  match allocate (s.reg c) s.advance with
  | .error k => raise k s.advance
  | .ok (id, t) => .next (t.setReg b id)

/-- DEL (R175): bad-delete for identifier 0 and for one that is not active, else `Free(R[C])`. -/
def execDel (c : RegId) (s : State) : Result :=
  if s.reg c = 0 ∨ s.mem.active (s.reg c) = false then raise .badDelete s.advance
  else .next (release (s.reg c) s.advance)

end Sys2Proof.Machine
end

