-- ==== Sys2Proof/Machine/Flags.lean ====
section
/-! DEFINITION. The core has no flags: no instruction sets or reads one (R32, R155). Conditions are
carried in ordinary registers, and this file holds the one test the hardware makes of them. -/

namespace Sys2Proof.Machine

/-- The condition MOV and PRG test: the word is not 0, on all 32 bits (R32, R130, R201). -/
def isNonzero (v : Word) : Bool := v != 0

end Sys2Proof.Machine
end

