-- ==== Sys2Proof/Machine/Control.lean ====
section
/-! DEFINITION. Control: HLT, PRG and the two undefined opcodes (R200, R201, R202). -/

namespace Sys2Proof.Machine

/-- HLT (R200): `STATUS <- HALTED`; the pc ends one past the word. -/
def execHlt (s : State) : Result := .next (s.advance.setStatus .halted)

/-- PRG (R201): with `R[B] = 0` an absolute jump and no check; else the image becomes a copy of the array
`R[B]` and then `pc <- R[C]`. The target is not checked here: a bad one is found by the next fetch. -/
def execPrg (b c : RegId) (s : State) : Result :=
  if isNonzero (s.reg b) then
    match installImage (s.reg b) s with
    | .error k => raise k s.advance
    | .ok t => .next (t.jump (s.reg c))
  else .next (s.jump (s.reg c))

/-- Opcode 14 (R202): always invalid-instruction. -/
def execInvalid14 (s : State) : Result := raise .invalidInstruction s.advance

/-- Opcode 15 (R202): always invalid-instruction. -/
def execInvalid15 (s : State) : Result := raise .invalidInstruction s.advance

end Sys2Proof.Machine
end

