-- ==== Sys2Proof/Machine/DataMove.lean ====
section
/-! DEFINITION. Data movement: MOV and LDI (R130, R131). -/

namespace Sys2Proof.Machine

/-- MOV (R130): `if R[C] != 0 then R[A] <- R[B]`. -/
def execMov (a b c : RegId) (s : State) : Result :=
  .next (if isNonzero (s.reg c) then s.advance.setReg a (s.reg b) else s.advance)

/-- LDI (R131): `R[r] <- zext_32(imm)`; the whole register is overwritten. -/
def execLdi (r : RegId) (imm : Imm25) (s : State) : Result :=
  .next (s.advance.setReg r (immWord imm))

end Sys2Proof.Machine
end

