-- ==== Sys2Proof/Machine/Io.lean ====
section
/-! DEFINITION. The byte interface's instructions: OUT and INP (R190, R191, R194). -/

namespace Sys2Proof.Machine

/-- OUT (R190): character-range above 255, else the byte is appended; it holds while the sink is not
ready (R194; log entry 6). The check comes before the transfer (R11). -/
def execOut (c : RegId) (s : State) : Result :=
  if isByte (s.reg c) = false then raise .characterRange s.advance
  else if s.outReady = false then hold s
  else .next (s.advance.emit (lowByte (s.reg c)))

/-- INP (R191): the next byte zero-extended, or the EOF value at end of input; it holds while there is
neither (R194; log entry 5). -/
def execInp (c : RegId) (s : State) : Result :=
  match s.input.receive with
  | (.byte b, rest) => .next ((s.advance.setInput rest).setReg c (byteWord b))
  | (.eof, rest) => .next ((s.advance.setInput rest).setReg c Config.eofWord)
  | (.none, _) => hold s

end Sys2Proof.Machine
end

