-- ==== Sys2Proof/Machine/Dispatch.lean ====
section
/-! DEFINITION. The dispatch multiplexer (R89): one arm per instruction. `exec i s` takes the state before
the step, with the pc at the instruction, and answers the state after it (log entry 12). -/

namespace Sys2Proof.Machine

def exec (i : Instr) (s : State) : Host.Outcome State Fault Refusal :=
  match i with
  | .mov a b c => Sys2Proof.Machine.execMov a b c s
  | .lda a b c => Sys2Proof.Machine.execLda a b c s
  | .sta a b c => Sys2Proof.Machine.execSta a b c s
  | .add a b c => Sys2Proof.Machine.execAdd a b c s
  | .mul a b c => Sys2Proof.Machine.execMul a b c s
  | .div a b c => Sys2Proof.Machine.execDiv a b c s
  | .nan a b c => Sys2Proof.Machine.execNan a b c s
  | .hlt => Sys2Proof.Machine.execHlt s
  | .new b c => Sys2Proof.Machine.execNew b c s
  | .del c => Sys2Proof.Machine.execDel c s
  | .out c => Sys2Proof.Machine.execOut c s
  | .inp c => Sys2Proof.Machine.execInp c s
  | .prg b c => Sys2Proof.Machine.execPrg b c s
  | .ldi r imm => Sys2Proof.Machine.execLdi r imm s
  | .invalid14 => Sys2Proof.Machine.execInvalid14 s
  | .invalid15 => Sys2Proof.Machine.execInvalid15 s

end Sys2Proof.Machine
end

