-- ==== Sys2Proof/Machine/Fetch.lean ====
section
/-! DEFINITION. Instruction fetch (R110, R111), and placing a word where the next fetch reads it. -/

namespace Sys2Proof.Machine

/-- The fetch (R111): the word of the image at the pc when the pc is below the length, unsigned. It does
not go through `Memory.read` and cannot raise inactive-array. -/
def fetch (s : State) : Option Word :=
  if s.pc.toNat < s.mem.image.length.toNat then some (s.mem.image.word s.pc.toNat) else none

/-- What a step answers when the fetch finds the pc out of bounds (R111, R230): the pc is not
incremented. -/
def fetchFault (s : State) : Result := raise .pcOutOfBounds s

/-- What a step answers when the run has ended: "no other component of `S` changes until the next
reset" (R29; log entry 4). -/
def stopped (s : State) : Result := .next s

/-- The image with `w` at index `n`, made longer when it does not reach so far (log entry 14). -/
def Descriptor.place (d : Descriptor) (n : Nat) (w : Word) : Descriptor :=
  if n < d.length.toNat then d.store n w
  else ({ d with length := BitVec.ofNat 32 (n + 1) } : Descriptor).store n w

/-- The state with the word `w` at the pc of the image and the core running, so that the next step
fetches `w` (log entry 14). -/
def State.placeWord (s : State) (w : Word) : State :=
  (s.setMem (s.mem.setImage (s.mem.image.place s.pc.toNat w))).setStatus .running

end Sys2Proof.Machine
end

