-- ==== Sys2Proof/Machine/Step.lean ====
section
/-! DEFINITION. One step of the core (R110). -/

namespace Sys2Proof.Machine

/-- `Step(S)` (R110, R115): while the status is RUNNING, fetch, decode and execute one instruction,
atomically. The fetch increment of the pc is made by the meanings (log entry 12). -/
def step (s : State) : Host.Outcome State Fault Refusal :=
  match s.status with
  | .running =>
    match fetch s with
    | none => fetchFault s
    | some w => exec (decode w) s
  | .halted => stopped s
  | .faulted _ => stopped s

/-- The state with the instruction whose low `nbits` bits are `w` stored where the next step fetches it
(log entry 14). -/
def State.withFetchWord (s : State) (nbits w : Nat) : State :=
  s.placeWord (BitVec.ofNat 32 (w % 2 ^ nbits))

end Sys2Proof.Machine
end

