-- ==== Sys2Proof/Machine/Channels.lean ====
section
/-! DEFINITION. The host's four channels (R262): RESET with LOAD, IN, OUT and STATUS. -/

namespace Sys2Proof.Machine

/-- `(b0<<24) | (b1<<16) | (b2<<8) | b3` (R252). -/
def wordOfBytes (b0 b1 b2 b3 : Byte) : Word :=
  BitVec.ofNat 32 (b0.toNat * 2 ^ 24 + b1.toNat * 2 ^ 16 + b2.toNat * 2 ^ 8 + b3.toNat)

/-- The words of a program stream, big-endian; 1 to 3 trailing bytes are dropped (R252, D12). -/
def wordsOfBytes : List Byte → List Word
  | b0 :: b1 :: b2 :: b3 :: rest => wordOfBytes b0 b1 b2 b3 :: wordsOfBytes rest
  | _ => []

/-- The storage of an array of the given words, the first at index `k`; a 0 is not listed. -/
def storageOf : Nat → List Word → List (Nat × Word)
  | _, [] => []
  | k, w :: rest => if w = 0 then storageOf (k + 1) rest else (k, w) :: storageOf (k + 1) rest

/-- The array of the given words. -/
def Descriptor.ofWords (ws : List Word) : Descriptor :=
  { length := BitVec.ofNat 32 ws.length, storage := storageOf 0 ws }

/-- `Load(bytes)` (R252, R253): the image, or none when the load is refused because the program has more
than 2^32 - 1 words or does not fit a finite store (log entry 15). -/
def loadImage (limit : Config.StorageLimit) (bytes : List Byte) : Option Descriptor :=
  let ws := wordsOfBytes bytes
  if ws.length ≤ Config.maxImageWords ∧ limitAllows limit ws.length then
    some (Descriptor.ofWords ws)
  else none

/-- RESET with LOAD on a core with the given store: the state a run of the program starts from, its input
stream at its beginning (R36, R250, R252). None when the load is refused. -/
def State.boot (limit : Config.StorageLimit) (bytes : List Byte) (inp : Input) : Option State :=
  (loadImage limit bytes).map fun d =>
    { State.reset with mem := { image := d, arrays := [] }, input := inp, memWords := limit }

/-- RESET with LOAD applied to a core in any state, running, held, halted or faulted (R250, D21): nothing
of the previous run is left. -/
def State.hostReset (s : State) (bytes : List Byte) (inp : Input) : Option State :=
  State.boot s.memWords bytes inp

/-- The host transfers `Byte(b)` on IN (R195). The end of input is permanent (D13): nothing can follow
it. -/
def State.deliver (s : State) (b : Byte) : State :=
  if s.input.ended then s else s.setInput { pending := s.input.pending ++ [b], ended := false }

/-- The host transfers `End` on IN (R195); it may do so any number of times. -/
def State.endInput (s : State) : State := s.setInput { pending := s.input.pending, ended := true }

/-- The host's sink becomes ready or not ready (R194, R195; log entry 6). -/
def State.setOutReady (s : State) (ready : Bool) : State := { s with outReady := ready }

/-- The terminal status code (R221): 0 for HALTED, a distinct nonzero code for each fault kind, none
while RUNNING. -/
def Status.code : Status → Option Nat
  | .running => none
  | .halted => some 0
  | .faulted .invalidInstruction => some 1
  | .faulted .inactiveArray => some 2
  | .faulted .badDelete => some 3
  | .faulted .divisionByZero => some 4
  | .faulted .programFromInactive => some 5
  | .faulted .characterRange => some 6
  | .faulted .pcOutOfBounds => some 7
  | .faulted .allocExhausted => some 8

end Sys2Proof.Machine
end

