-- ==== Sys2Proof/Machine/Run.lean ====
section
/-! DEFINITION. A run: the core together with a host that hands over an input stream (R193, R195). The
stream is a parameter of the run, so that it may be infinite; the state holds only what was transferred.
Log entries: 5, 9. -/

namespace Sys2Proof.Machine

/-- A finite or infinite sequence of bytes (R257). -/
inductive ByteSeq where
  | finite (bytes : List Byte)
  | infinite (byteAt : Nat → Byte)

/-- The input stream of a run (R30, R193): finite and then at its end, or infinite; and what a host does
that supplies some bytes and then neither a byte nor the end, at which the core is held for ever (R194,
R256). -/
inductive InputStream where
  | finite (bytes : List Byte)
  | infinite (byteAt : Nat → Byte)
  | stalled (bytes : List Byte)

/-- The payload of one transfer on IN: `Byte(b)` or `End` (R195). -/
inductive Transfer where
  | byte (b : Byte)
  | endOfInput
deriving DecidableEq, Repr

/-- What the host transfers next when it has handed over `n` bytes; none when it stalls. At the end of a
finite stream it is `End`, any number of times (R195). -/
def InputStream.transfer : InputStream → Nat → Option Transfer
  | .finite bytes, n => some ((bytes[n]?.map Transfer.byte).getD .endOfInput)
  | .infinite byteAt, n => some (.byte (byteAt n))
  | .stalled bytes, n => bytes[n]?.map Transfer.byte

/-- INP, the one instruction that reads the input stream (R30). -/
def isInp : Instr → Bool
  | .inp _ => true
  | .mov _ _ _ | .lda _ _ _ | .sta _ _ _ | .add _ _ _ | .mul _ _ _ | .div _ _ _ | .nan _ _ _
  | .hlt | .new _ _ | .del _ | .out _ | .prg _ _ | .ldi _ _ | .invalid14 | .invalid15 => false

/-- The core executes an INP and waits for a transfer (R194): running, an INP at the pc, no byte
transferred and no end. "A transfer happens only when the core executes the matching instruction" (R195). -/
def State.awaitsInput (s : State) : Bool :=
  s.status == .running && ((fetch s).map fun w => isInp (decode w)).getD false &&
    s.input.pending.isEmpty && !s.input.ended

/-- A run as it goes: the core, and how many bytes the host has handed over on IN. -/
structure Run where
  core  : State
  given : Nat
deriving DecidableEq, Repr

/-- RESET with LOAD (R250, R252), the input stream at its beginning (R36): nothing handed over. None when
the load is refused. -/
def Run.start (limit : Config.StorageLimit) (bytes : List Byte) : Option Run :=
  (State.boot limit bytes { pending := [], ended := false }).map fun s => { core := s, given := 0 }

/-- One transfer on IN. -/
def Run.accept (r : Run) : Transfer → Run
  | .byte b => { core := r.core.deliver b, given := r.given + 1 }
  | .endOfInput => { r with core := r.core.endInput }

/-- The host's turn before a step: when the core waits for a transfer, the host makes it if it has one. -/
def Run.supply (inp : InputStream) (r : Run) : Run :=
  if r.core.awaitsInput then ((inp.transfer r.given).map r.accept).getD r else r

/-- The state a step answers; a step that answers no next state would leave it as it is. -/
def stepState (s : State) : State :=
  match step s with
  | .next t => t
  | .fault _ => s
  | .refused _ => s

/-- The host's turn and a step of the core. -/
def Run.next (inp : InputStream) (r : Run) : Run :=
  { core := stepState (r.supply inp).core, given := (r.supply inp).given }

/-- The run after `k` more steps. -/
def Run.after (inp : InputStream) : Nat → Run → Run
  | 0, r => r
  | k + 1, r => (r.next inp).after inp k

/-- The core alone, `k` steps on, with no transfer by the host. -/
def runSteps : Nat → State → State
  | 0, s => s
  | k + 1, s => runSteps k (stepState s)

end Sys2Proof.Machine
end

