-- ==== Sys2Proof/Safety.lean ====
section
/-! DEFINITION. The terms claims are stated in: what an instruction leaves unchanged, when an instruction
faults (R220), the invariants of the machine (R28, R37), and what a run is (R256, R257). -/

namespace Sys2Proof.Machine

/-! ### What a step leaves unchanged -/

/-- Every register but `a` is as before. -/
def SameRegsBut (a : RegId) (s t : State) : Prop := ∀ r, r ≠ a → t.reg r = s.reg r

/-- Every register is as before. -/
def SameRegs (s t : State) : Prop := ∀ r, t.reg r = s.reg r

/-- Every array but `x` is as before: the same arrays are active, with the same lengths and words. -/
def SameArraysBut (x : Word) (s t : State) : Prop :=
  ∀ id, id ≠ x → t.mem.len id = s.mem.len id ∧ ∀ i, t.mem.read id i = s.mem.read id i

/-- Every array is as before. -/
def SameArrays (s t : State) : Prop :=
  ∀ id, t.mem.len id = s.mem.len id ∧ ∀ i, t.mem.read id i = s.mem.read id i

/-- The free chain and the capacity are as before. -/
def SameChain (s t : State) : Prop := t.free = s.free ∧ t.cap = s.cap

/-- The input left and the bytes emitted are as before. -/
def SameStreams (s t : State) : Prop := t.input = s.input ∧ t.outs = s.outs

/-- What no instruction changes: the host's readiness and the parameter MEM_WORDS. -/
def SameSetup (s t : State) : Prop := t.outReady = s.outReady ∧ t.memWords = s.memWords

/-- Everything but the registers, the pc and the status is as before. -/
def SameBesidesRegs (s t : State) : Prop :=
  SameArrays s t ∧ SameChain s t ∧ SameStreams s t ∧ SameSetup s t

/-- The instruction goes on to the next word and changes no register but `a`, and nothing else. -/
def OnlyRegister (a : RegId) (s t : State) : Prop :=
  t.pc = s.pc + 1 ∧ t.status = s.status ∧ SameRegsBut a s t ∧ SameBesidesRegs s t

/-- What taking a fault does (R230): the status, the pc one past the word, and nothing else. -/
def FaultTaken (k : Fault) (s t : State) : Prop :=
  t.status = .faulted k ∧ t.pc = s.pc + 1 ∧ SameRegs s t ∧ SameBesidesRegs s t

/-! ### When an instruction faults -/

/-- The index is inside an active array (R52). -/
def InBounds (m : Memory) (id i : Word) : Prop := ∃ n, m.len id = some n ∧ i.toNat < n.toNat

/-- A total of `n` words is more than a finite store holds (R66). -/
def ExceedsStore (s : State) (n : Nat) : Prop := ∃ m, s.memWords = .words m ∧ m < n

/-- The "exact condition" column of R220 for the faults of instructions. The storage condition of PRG
is `USED + Len(id) - Len(0) > MEM_WORDS` of R201. -/
def FaultCond : Instr → Fault → State → Prop
  | .invalid14, .invalidInstruction, _ => True
  | .invalid15, .invalidInstruction, _ => True
  | .lda _ b c, .inactiveArray, s => ¬ InBounds s.mem (s.reg b) (s.reg c)
  | .sta a b _, .inactiveArray, s => ¬ InBounds s.mem (s.reg a) (s.reg b)
  | .del c, .badDelete, s => s.reg c = 0 ∨ s.mem.active (s.reg c) = false
  | .div _ _ c, .divisionByZero, s => s.reg c = 0
  | .prg b _, .programFromInactive, s => s.reg b ≠ 0 ∧ s.mem.active (s.reg b) = false
  | .out c, .characterRange, s => 255 < (s.reg c).toNat
  | .new _ c, .allocExhausted, s =>
    (s.free = [] ∧ 2 ^ 32 ≤ s.cap) ∨ ExceedsStore s (s.mem.used + (s.reg c).toNat)
  | .prg b _, .allocExhausted, s =>
    s.reg b ≠ 0 ∧ ∃ n, s.mem.len (s.reg b) = some n ∧
      ExceedsStore s (s.mem.used + n.toNat - s.mem.image.length.toNat)
  | _, _, _ => False

/-- The register an instruction may write (R21: "Written by"). -/
def destReg : Instr → Option RegId
  | .mov a _ _ | .lda a _ _ | .add a _ _ | .mul a _ _ | .div a _ _ | .nan a _ _ => some a
  | .new b _ => some b
  | .inp c => some c
  | .ldi r _ => some r
  | .sta _ _ _ | .hlt | .del _ | .out _ | .prg _ _ | .invalid14 | .invalid15 => none

/-- The instruction the next fetch reads: the decoding of the word of the image at the pc. -/
def State.nextInstr (s : State) : Instr := decode (s.mem.image.word s.pc.toNat)

/-- The step fetches and executes an instruction: the core is running and the pc is inside the image
(R110). -/
def State.Executes (s : State) : Prop :=
  s.status = .running ∧ s.pc.toNat < s.mem.image.length.toNat

/-- The core holds at the instruction (R194): INP with no byte and no end of input, or OUT of a byte
with a sink that is not ready. -/
def Holds (i : Instr) (s : State) : Prop :=
  match i with
  | .inp _ => s.input.pending = [] ∧ s.input.ended = false
  | .out c => (s.reg c).toNat ≤ 255 ∧ s.outReady = false
  | _ => False

/-- The state with more bytes behind the delivered ones. -/
def State.withMoreInput (s : State) (more : List Byte) : State :=
  { s with input := { pending := s.input.pending ++ more, ended := s.input.ended } }

/-- The state with an unbounded store. -/
def State.withoutLimit (s : State) : State := { s with memWords := .unbounded }

/-! ### Invariants -/

/-- The invariants of R28, with the canonical form of the memory (log entry 1) and the shape of the
capacity (R172: 1, 2, 4, 8, ... up to 2^32). -/
structure State.Inv (s : State) : Prop where
  /-- The memory is in its canonical form. -/
  memory : s.mem.wf
  /-- Item 1: identifier 0 is active and refers to the image. -/
  program : s.mem.find 0 = some s.mem.image
  /-- Item 3: no repeated element. -/
  chainNodup : s.free.Nodup
  /-- Item 3: 0 is not on the chain and every element is in range. -/
  chainRange : ∀ id ∈ s.free, id ≠ 0 ∧ id.toNat < s.cap
  /-- Item 4: no identifier is both active and on the chain. -/
  chainInactive : ∀ id ∈ s.free, s.mem.active id = false
  /-- Item 5: every identifier in `1 .. CAP-1` is active or on the chain. -/
  covered : ∀ id : Word, id ≠ 0 → id.toNat < s.cap → s.mem.active id = true ∨ id ∈ s.free
  /-- Item 6: no active identifier is out of range. -/
  activeRange : ∀ id, s.mem.active id = true → id.toNat < s.cap
  /-- The capacity is a power of two up to 2^32 (R27, R172). -/
  capacity : ∃ k ≤ 32, s.cap = 2 ^ k
  /-- Item 7: the words in use fit the store. -/
  storage : s.fits s.mem.used = true

/-- The reduced state (R37): `rel` lists the identifiers released and not reused, most recent first, and
`nxt` is the least identifier never returned. -/
structure Reduced (s : State) (rel : List Word) (nxt : Nat) : Prop where
  /-- `1 <= NXT <= CAP`. -/
  range : 1 ≤ nxt ∧ nxt ≤ s.cap
  /-- `FREE = REL ++ [NXT, NXT+1, ..., CAP-1]`. -/
  chain : s.free = rel ++ (List.range' nxt (s.cap - nxt)).map (BitVec.ofNat 32)
  /-- `Active(id)` is `id = 0`, or `0 < id < NXT` and `id` not in `REL`. -/
  active : ∀ id : Word, s.mem.active id = true ↔ id = 0 ∨ (id.toNat < nxt ∧ id ∉ rel)

/-- What an instruction that completes does to the reduced state (R37): NEW takes the head of `REL` if
there is one, else `NXT`; DEL pushes on `REL`. -/
def reducedAfter (i : Instr) (s : State) (rel : List Word) (nxt : Nat) : List Word × Nat :=
  match i with
  | .new _ _ =>
    match rel with
    | _ :: rest => (rest, nxt)
    | [] => ([], nxt + 1)
  | .del c => (s.reg c :: rel, nxt)
  | _ => (rel, nxt)

/-! ### Runs -/

/-- Every instruction that names the identifier, through whichever register holds it, faults: LDA and STA
with inactive-array, PRG with program-from-inactive, DEL with bad-delete (R67). -/
def EveryUseFaults (id : Word) (s : State) : Prop :=
  ∀ x, s.reg x = id →
    (∀ a y, ∃ t, exec (.lda a x y) s = .next t ∧ FaultTaken .inactiveArray s t) ∧
    (∀ y z, ∃ t, exec (.sta x y z) s = .next t ∧ FaultTaken .inactiveArray s t) ∧
    (∀ y, ∃ t, exec (.prg x y) s = .next t ∧ FaultTaken .programFromInactive s t) ∧
    ∃ t, exec (.del x) s = .next t ∧ FaultTaken .badDelete s t

/-- The step from `s` to `t` executed a NEW that completed and returned the identifier. -/
def NewReturned (id : Word) (s t : State) : Prop :=
  s.Executes ∧ t.status = .running ∧ ∃ b c, s.nextInstr = .new b c ∧ t.reg b = id

/-- Outputs that grow are, in the limit, the given sequence: a finite one is reached and stays, every byte
of an infinite one is emitted (R257). -/
def EmitsInTheLimit (outsAt : Nat → List Byte) : ByteSeq → Prop
  | .finite bytes => ∃ n, ∀ k, n ≤ k → outsAt k = bytes
  | .infinite byteAt => ∀ n, ∃ k, (outsAt k)[n]? = some (byteAt n)

/-- What the host observes of a run (R257). -/
inductive Observation where
  | ends (outs : List Byte) (code : Nat)
  | diverges (emitted : ByteSeq)

/-- `Run(program bytes, input stream)` is `Ends(OUTS, code)` (R257): after some steps of the run the status
has the code and the output is `outs`. -/
def Ends (limit : Config.StorageLimit) (bytes : List Byte) (inp : InputStream) (outs : List Byte)
    (code : Nat) : Prop :=
  ∃ r k, Run.start limit bytes = some r ∧ (r.after inp k).core.status.code = some code ∧
    (r.after inp k).core.outs = outs

/-- `Run(program bytes, input stream)` is `Diverges(emitted)` (R257): the load is accepted, no number of
steps ends the run, and the bytes emitted are, in order, the finite or infinite sequence. -/
def Diverges (limit : Config.StorageLimit) (bytes : List Byte) (inp : InputStream)
    (emitted : ByteSeq) : Prop :=
  ∃ r, Run.start limit bytes = some r ∧ (∀ k, (r.after inp k).core.status = .running) ∧
    EmitsInTheLimit (fun k => (r.after inp k).core.outs) emitted

/-- `Run(program bytes, input stream)` is the observation (R257). -/
def RunIs (limit : Config.StorageLimit) (bytes : List Byte) (inp : InputStream) : Observation → Prop
  | .ends outs code => Ends limit bytes inp outs code
  | .diverges emitted => Diverges limit bytes inp emitted

end Sys2Proof.Machine
end

