-- ==== Sys2Proof/WellFormed.lean ====
section
/-! DEFINITION. Which instructions are legal, and which words are canonical encodings. The types of
the operands already say the rest: every register number and every 25-bit immediate is legal (R87). -/

namespace Sys2Proof

/-- A legal instruction: its opcode is one of the fourteen defined ones (R90: "Only opcodes 0..13 are
defined; 14 and 15 must fault"). -/
def Instr.wellFormed (i : Instr) : Bool := i.opcode < 14

/-- How many low bits of the words of an opcode carry operands: the named register fields of R85, and
all 28 bits of LDI (R82). The bits above them, up to bit 27, are ignored (R84, R85). -/
def operandBits : Nat → Nat
  | 0 | 1 | 2 | 3 | 4 | 5 | 6 => 9
  | 8 | 12 => 6
  | 9 | 10 | 11 => 3
  | 13 => 28
  | _ => 0

/-- A canonical word: "every ignored bit and every unused register field" is 0 (R95). -/
def Word.canonical (w : Word) : Bool :=
  w.toNat % 2 ^ 28 < 2 ^ operandBits (w.toNat / 2 ^ 28)

end Sys2Proof
end

