-- ==== Sys2Proof/Certificates/Slice0/Obligations.lean ====
section
/-! DEFINITION. The statements for the provers. Each docstring names the rule of spec/ it comes from. -/

open Sys2Proof Sys2Proof.Machine

/-! ### Encoding -/

/-- R95: decoding the canonical word of an instruction gives the instruction back, for every instruction
and every operand; that word is canonical, and re-encoding gives a word back exactly when it is. -/
def Obligations.DecodeInvertsEncode : Prop :=
  (∀ i, decode (encode i) = i ∧ (encode i).canonical = true) ∧
  ∀ w, encode (decode w) = w ↔ w.canonical = true

/-- R81, R82: the fields are the digits of the word: `W = opcode*2^28 + ign*2^9 + A*64 + B*8 + C` in
format R, and `W = 13*2^28 + reg*2^25 + imm` for opcode 13. -/
def Obligations.WordIsMadeOfItsFields : Prop :=
  (∀ w, opcodeOf w < 16 ∧ ∃ ign < 2 ^ 19, opcodeOf w ≠ 13 →
    w.toNat = opcodeOf w * 2 ^ 28 + ign * 2 ^ 9 + (fieldA w).val * 64 + (fieldB w).val * 8 +
      (fieldC w).val) ∧
  ∀ w, opcodeOf w = 13 →
    w.toNat = 13 * 2 ^ 28 + (fieldLdiReg w).val * 2 ^ 25 + (fieldLdiImm w).toNat

/-- R84, R85: two words of one opcode that agree on the bits the instruction uses decode alike: bits 8..0
for the three-register instructions, 5..0 for NEW and PRG, 2..0 for DEL, OUT and INP, none for HLT and
the undefined opcodes. That the unnamed register fields are ignored is the spec's decision D26 (log entry
16). -/
def Obligations.UnusedBitsDoNotMatter : Prop :=
  (∀ w v, opcodeOf w = opcodeOf v → opcodeOf w ≠ 13 → w.toNat % 2 ^ 9 = v.toNat % 2 ^ 9 →
    decode w = decode v) ∧
  (∀ w v, opcodeOf w = opcodeOf v → opcodeOf w = 8 ∨ opcodeOf w = 12 →
    w.toNat % 2 ^ 6 = v.toNat % 2 ^ 6 → decode w = decode v) ∧
  (∀ w v, opcodeOf w = opcodeOf v → opcodeOf w = 9 ∨ opcodeOf w = 10 ∨ opcodeOf w = 11 →
    w.toNat % 2 ^ 3 = v.toNat % 2 ^ 3 → decode w = decode v) ∧
  (∀ w v, opcodeOf w = opcodeOf v → opcodeOf w = 7 ∨ opcodeOf w = 14 ∨ opcodeOf w = 15 →
    decode w = decode v)

/-- R90: exactly the words from 0xE0000000 up are illegal, and each of them raises invalid-instruction;
the all-zero word is `MOV R0, R0, R0`, which changes nothing but the pc, and the all-ones word is
illegal. -/
def Obligations.IllegalWordsAreTheTopTwoOpcodes : Prop :=
  (∀ w, (decode w).wellFormed = false ↔ 0xE0000000 ≤ w.toNat) ∧
  (∀ w s, 0xE0000000 ≤ w.toNat →
    ∃ t, exec (decode w) s = .next t ∧ FaultTaken .invalidInstruction s t) ∧
  decode 0 = .mov 0 0 0 ∧
  (∀ s, ∃ t, exec (decode 0) s = .next t ∧ t.pc = s.pc + 1 ∧ t.status = s.status ∧
    SameRegs s t ∧ SameBesidesRegs s t) ∧
  (decode 0xFFFFFFFF).wellFormed = false

/-- Words written out from the encodings of R81 and R82, one or two of each family, decode to the
instructions they stand for. -/
def Obligations.SampleWordsDecode : Prop :=
  decode 0x00000158 = .mov 5 3 0 ∧ decode 0xD6000030 = .ldi 3 0x30 ∧
  decode 0x1000010A = .lda 4 1 2 ∧ decode 0x20000053 = .sta 1 2 3 ∧
  decode 0x30000081 = .add 2 0 1 ∧ decode 0x50000081 = .div 2 0 1 ∧
  decode 0x80000008 = .new 1 0 ∧ decode 0x90000001 = .del 1 ∧
  decode 0xA0000005 = .out 5 ∧ decode 0xBFFFFFFF = .inp 7 ∧
  decode 0xC000000D = .prg 1 5 ∧ decode 0x7FFFFFFF = .hlt ∧
  decode 0xE0000000 = .invalid14 ∧ decode 0xF0000000 = .invalid15

/-! ### The instructions: encoding, effect, frame and completion -/

/-- R130. -/
def Obligations.MovMovesWhenNonzero : Prop :=
  (∀ a b c, (encode (.mov a b c)).toNat = 0x00000000 + a.val * 64 + b.val * 8 + c.val) ∧
  (∀ w, opcodeOf w = 0 → decode w = .mov (fieldA w) (fieldB w) (fieldC w)) ∧
  ∀ a b c s, ∃ t, exec (.mov a b c) s = .next t ∧
    t.reg a = (if s.reg c ≠ 0 then s.reg b else s.reg a) ∧ OnlyRegister a s t

/-- R131. -/
def Obligations.LdiLoadsZeroExtendedImmediate : Prop :=
  (∀ r imm, (encode (.ldi r imm)).toNat = 0xD0000000 + r.val * 0x02000000 + imm.toNat) ∧
  (∀ w, opcodeOf w = 13 → decode w = .ldi (fieldLdiReg w) (fieldLdiImm w)) ∧
  ∀ r imm s, ∃ t, exec (.ldi r imm) s = .next t ∧
    (t.reg r).toNat = imm.toNat ∧ OnlyRegister r s t

/-- R140: inside an active array the element is loaded; otherwise inactive-array, and nothing is
written. -/
def Obligations.LdaLoadsElementOrFaults : Prop :=
  (∀ a b c, (encode (.lda a b c)).toNat = 0x10000000 + a.val * 64 + b.val * 8 + c.val) ∧
  (∀ w, opcodeOf w = 1 → decode w = .lda (fieldA w) (fieldB w) (fieldC w)) ∧
  (∀ a b c s d, s.mem.find (s.reg b) = some d → (s.reg c).toNat < d.length.toNat →
    ∃ t, exec (.lda a b c) s = .next t ∧ t.reg a = d.word (s.reg c).toNat ∧
      OnlyRegister a s t) ∧
  ∀ a b c s, ¬ InBounds s.mem (s.reg b) (s.reg c) →
    ∃ t, exec (.lda a b c) s = .next t ∧ FaultTaken .inactiveArray s t

/-- R141: inside an active array the element at (R[A], R[B]) becomes R[C] and every other element of
every array is as before; otherwise inactive-array, and nothing is written. -/
def Obligations.StaStoresElementOrFaults : Prop :=
  (∀ a b c, (encode (.sta a b c)).toNat = 0x20000000 + a.val * 64 + b.val * 8 + c.val) ∧
  (∀ w, opcodeOf w = 2 → decode w = .sta (fieldA w) (fieldB w) (fieldC w)) ∧
  (∀ a b c s, InBounds s.mem (s.reg a) (s.reg b) →
    ∃ t, exec (.sta a b c) s = .next t ∧
      t.mem.read (s.reg a) (s.reg b) = .ok (s.reg c) ∧
      (∀ id i, ¬ (id = s.reg a ∧ i = s.reg b) → t.mem.read id i = s.mem.read id i) ∧
      (∀ id, t.mem.len id = s.mem.len id) ∧
      t.pc = s.pc + 1 ∧ t.status = s.status ∧ SameRegs s t ∧ SameChain s t ∧ SameStreams s t ∧
      SameSetup s t) ∧
  ∀ a b c s, ¬ InBounds s.mem (s.reg a) (s.reg b) →
    ∃ t, exec (.sta a b c) s = .next t ∧ FaultTaken .inactiveArray s t

/-- R150. -/
def Obligations.AddWritesSumModuloTwoTo32 : Prop :=
  (∀ a b c, (encode (.add a b c)).toNat = 0x30000000 + a.val * 64 + b.val * 8 + c.val) ∧
  (∀ w, opcodeOf w = 3 → decode w = .add (fieldA w) (fieldB w) (fieldC w)) ∧
  ∀ a b c s, ∃ t, exec (.add a b c) s = .next t ∧
    t.reg a = s.reg b + s.reg c ∧
    (t.reg a).toNat = ((s.reg b).toNat + (s.reg c).toNat) % 2 ^ 32 ∧ OnlyRegister a s t

/-- R151. -/
def Obligations.MulWritesProductModuloTwoTo32 : Prop :=
  (∀ a b c, (encode (.mul a b c)).toNat = 0x40000000 + a.val * 64 + b.val * 8 + c.val) ∧
  (∀ w, opcodeOf w = 4 → decode w = .mul (fieldA w) (fieldB w) (fieldC w)) ∧
  ∀ a b c s, ∃ t, exec (.mul a b c) s = .next t ∧
    (t.reg a).toNat = ((s.reg b).toNat * (s.reg c).toNat) % 2 ^ 32 ∧ OnlyRegister a s t

/-- R152: the unsigned floor quotient; division-by-zero exactly when the divisor is 0. -/
def Obligations.DivWritesFloorQuotientOrFaults : Prop :=
  (∀ a b c, (encode (.div a b c)).toNat = 0x50000000 + a.val * 64 + b.val * 8 + c.val) ∧
  (∀ w, opcodeOf w = 5 → decode w = .div (fieldA w) (fieldB w) (fieldC w)) ∧
  (∀ a b c s, s.reg c ≠ 0 → ∃ t, exec (.div a b c) s = .next t ∧
    (t.reg a).toNat * (s.reg c).toNat ≤ (s.reg b).toNat ∧
    (s.reg b).toNat < ((t.reg a).toNat + 1) * (s.reg c).toNat ∧ OnlyRegister a s t) ∧
  ∀ a b c s, s.reg c = 0 →
    ∃ t, exec (.div a b c) s = .next t ∧ FaultTaken .divisionByZero s t

/-- R153: each of the 32 bits is 0 exactly when both source bits are 1. -/
def Obligations.NanWritesBitwiseNotAnd : Prop :=
  (∀ a b c, (encode (.nan a b c)).toNat = 0x60000000 + a.val * 64 + b.val * 8 + c.val) ∧
  (∀ w, opcodeOf w = 6 → decode w = .nan (fieldA w) (fieldB w) (fieldC w)) ∧
  ∀ a b c s, ∃ t, exec (.nan a b c) s = .next t ∧
    (∀ j < 32, (t.reg a).getLsbD j = !((s.reg b).getLsbD j && (s.reg c).getLsbD j)) ∧
    OnlyRegister a s t

/-- R200: the status becomes HALTED, nothing else but the pc changes, and the core does nothing more (log
entry 4: the step of an ended run answers the same state). -/
def Obligations.HltHalts : Prop :=
  encode .hlt = 0x70000000 ∧ (∀ w, opcodeOf w = 7 → decode w = .hlt) ∧
  ∀ s, ∃ t, exec .hlt s = .next t ∧ t.status = .halted ∧ t.pc = s.pc + 1 ∧ SameRegs s t ∧
    SameBesidesRegs s t ∧ step t = .next t

/-- R174, R170: with an identifier and storage left, NEW answers the head of the free chain, or with an
empty chain the identifier CAP of a table grown to twice its size with the other new slots on the chain
in ascending order; the new array has R[C] words, all 0; no other array changes. In a state of the
machine's invariant the identifier is not 0, was not active before and is active after. Without an
identifier or storage it is alloc-exhausted and nothing changes. The growth policy and alloc-exhausted are
the spec's decisions D4 and D6 (log entry 11), the sums in states no run reaches log entry 13. -/
def Obligations.NewAllocatesZeroedArray : Prop :=
  (∀ b c, (encode (.new b c)).toNat = 0x80000000 + b.val * 8 + c.val) ∧
  (∀ w, opcodeOf w = 8 → decode w = .new (fieldB w) (fieldC w)) ∧
  (∀ b c s, (s.free ≠ [] ∨ s.cap < 2 ^ 32) →
    ¬ ExceedsStore s (s.mem.used + (s.reg c).toNat) →
    ∃ t id, exec (.new b c) s = .next t ∧
      id = s.free.head?.getD (BitVec.ofNat 32 s.cap) ∧ t.reg b = id ∧ SameRegsBut b s t ∧
      t.mem.len id = some (s.reg c) ∧
      (∀ i, i.toNat < (s.reg c).toNat → t.mem.read id i = .ok 0) ∧
      SameArraysBut id s t ∧
      (s.free ≠ [] → t.free = s.free.tail ∧ t.cap = s.cap) ∧
      (s.free = [] → t.cap = 2 * s.cap ∧
        ∀ k, t.free[k]? =
          if k + 1 < s.cap then some (BitVec.ofNat 32 (s.cap + 1 + k)) else none) ∧
      (s.Inv → id ≠ 0 ∧ s.mem.active id = false ∧ t.mem.active id = true) ∧
      t.pc = s.pc + 1 ∧ t.status = s.status ∧ SameStreams s t ∧ SameSetup s t) ∧
  ∀ b c s, (s.free = [] ∧ 2 ^ 32 ≤ s.cap) ∨
      ExceedsStore s (s.mem.used + (s.reg c).toNat) →
    ∃ t, exec (.new b c) s = .next t ∧ FaultTaken .allocExhausted s t

/-- R175, R171: the identifier leaves the table and becomes the head of the free chain; for identifier 0
and for one that is not active it is bad-delete and the table is unchanged. -/
def Obligations.DelFreesArrayOrFaults : Prop :=
  (∀ c, (encode (.del c)).toNat = 0x90000000 + c.val) ∧
  (∀ w, opcodeOf w = 9 → decode w = .del (fieldC w)) ∧
  (∀ c s, s.reg c ≠ 0 → s.mem.active (s.reg c) = true →
    ∃ t, exec (.del c) s = .next t ∧ t.mem.active (s.reg c) = false ∧
      t.free = s.reg c :: s.free ∧ t.cap = s.cap ∧ SameArraysBut (s.reg c) s t ∧
      t.pc = s.pc + 1 ∧ t.status = s.status ∧ SameRegs s t ∧ SameStreams s t ∧ SameSetup s t) ∧
  ∀ c s, s.reg c = 0 ∨ s.mem.active (s.reg c) = false →
    ∃ t, exec (.del c) s = .next t ∧ FaultTaken .badDelete s t

/-- R190, R192, R194: a value up to 255 is appended to the output when the sink is ready, and the core
holds when it is not; a larger one is character-range whatever the sink does, and nothing is emitted. The
readiness of the sink and the form of the hold are the model's (log entries 5 and 6). -/
def Obligations.OutEmitsByteOrFaults : Prop :=
  (∀ c, (encode (.out c)).toNat = 0xA0000000 + c.val) ∧
  (∀ w, opcodeOf w = 10 → decode w = .out (fieldC w)) ∧
  (∀ c s, (s.reg c).toNat ≤ 255 → s.outReady = true →
    ∃ t b, exec (.out c) s = .next t ∧ t.outs = s.outs ++ [b] ∧ b.toNat = (s.reg c).toNat ∧
      t.input = s.input ∧ t.pc = s.pc + 1 ∧ t.status = s.status ∧ SameRegs s t ∧
      SameArrays s t ∧ SameChain s t ∧ SameSetup s t) ∧
  (∀ c s, (s.reg c).toNat ≤ 255 → s.outReady = false → exec (.out c) s = .next s) ∧
  ∀ c s, 255 < (s.reg c).toNat →
    ∃ t, exec (.out c) s = .next t ∧ FaultTaken .characterRange s t

/-- R191, R193, R194: the next byte zero-extended, which leaves the stream; at end of input 0xFFFFFFFF,
and the stream is unchanged; with neither the core holds (log entries 5 and 9). -/
def Obligations.InpReadsByteOrEndOfInput : Prop :=
  (∀ c, (encode (.inp c)).toNat = 0xB0000000 + c.val) ∧
  (∀ w, opcodeOf w = 11 → decode w = .inp (fieldC w)) ∧
  (∀ c s b rest, s.input.pending = b :: rest →
    ∃ t, exec (.inp c) s = .next t ∧ (t.reg c).toNat = b.toNat ∧ t.input.pending = rest ∧
      t.input.ended = s.input.ended ∧ t.outs = s.outs ∧ t.pc = s.pc + 1 ∧ t.status = s.status ∧
      SameRegsBut c s t ∧ SameArrays s t ∧ SameChain s t ∧ SameSetup s t) ∧
  (∀ c s, s.input.pending = [] → s.input.ended = true →
    ∃ t, exec (.inp c) s = .next t ∧ (t.reg c).toNat = 0xFFFFFFFF ∧ OnlyRegister c s t) ∧
  ∀ c s, s.input.pending = [] → s.input.ended = false → exec (.inp c) s = .next s

/-- R201: with R[B] = 0 a jump that changes nothing but the pc; with R[B] active and room for the copy,
array 0 becomes a copy of array R[B] and the pc R[C]; with R[B] not active program-from-inactive,
checked first; without room alloc-exhausted (the spec's decisions D6 and D9, log entry 16). -/
def Obligations.PrgInstallsProgramAndJumps : Prop :=
  (∀ b c, (encode (.prg b c)).toNat = 0xC0000000 + b.val * 8 + c.val) ∧
  (∀ w, opcodeOf w = 12 → decode w = .prg (fieldB w) (fieldC w)) ∧
  (∀ b c s, s.reg b = 0 →
    ∃ t, exec (.prg b c) s = .next t ∧ t.pc = s.reg c ∧ t.status = s.status ∧ SameRegs s t ∧
      SameBesidesRegs s t) ∧
  (∀ b c s n, s.reg b ≠ 0 → s.mem.len (s.reg b) = some n →
    ¬ ExceedsStore s (s.mem.used + n.toNat - s.mem.image.length.toNat) →
    ∃ t, exec (.prg b c) s = .next t ∧ t.pc = s.reg c ∧ t.mem.len 0 = some n ∧
      (∀ i, t.mem.read 0 i = s.mem.read (s.reg b) i) ∧ SameArraysBut 0 s t ∧
      t.status = s.status ∧ SameRegs s t ∧ SameChain s t ∧ SameStreams s t ∧ SameSetup s t) ∧
  (∀ b c s, s.reg b ≠ 0 → s.mem.active (s.reg b) = false →
    ∃ t, exec (.prg b c) s = .next t ∧ FaultTaken .programFromInactive s t) ∧
  ∀ b c s n, s.reg b ≠ 0 → s.mem.len (s.reg b) = some n →
    ExceedsStore s (s.mem.used + n.toNat - s.mem.image.length.toNat) →
    ∃ t, exec (.prg b c) s = .next t ∧ FaultTaken .allocExhausted s t

/-- R202: every word of opcode 14 or 15 raises invalid-instruction, always. -/
def Obligations.UndefinedOpcodesRaiseInvalidInstruction : Prop :=
  (∀ w, opcodeOf w = 14 → decode w = .invalid14) ∧
  (∀ w, opcodeOf w = 15 → decode w = .invalid15) ∧
  (∀ s, ∃ t, exec .invalid14 s = .next t ∧ FaultTaken .invalidInstruction s t) ∧
  ∀ s, ∃ t, exec .invalid15 s = .next t ∧ FaultTaken .invalidInstruction s t

/-! ### The step -/

/-- R110, R111: while running, with the pc below the length of array 0, the step is the execution of the
decoded word at the pc, which takes the pc's increment with it; with the pc not below it, the step is
the pc-out-of-bounds fault with the pc as it was. When the run has ended nothing changes (R29, log entry
4). -/
def Obligations.StepRunsTheDecodedInstruction : Prop :=
  (∀ s, s.status = .running → s.pc.toNat < s.mem.image.length.toNat →
    step s = exec (decode (s.mem.image.word s.pc.toNat)) s) ∧
  (∀ s, s.status = .running → s.mem.image.length.toNat ≤ s.pc.toNat →
    ∃ t, step s = .next t ∧ t.status = .faulted .pcOutOfBounds ∧ t.pc = s.pc ∧ SameRegs s t ∧
      SameBesidesRegs s t) ∧
  ∀ s, s.status ≠ .running → step s = .next s

/-- R116, R232: a step of any state answers a next state; it never ends in a stop of the model's own (log
entries 3 to 5: a fault, an ended run and a hold are next states). -/
def Obligations.EveryStepAnswersANextState : Prop :=
  ∀ s, ∃ t, step s = .next t

/-- R220: a step leaves a running core in FAULTED(kind) exactly under the kind's "exact condition": at
the fetch when the pc is not below the length of array 0, else under the conditions of the
instruction. -/
def Obligations.FaultsExactlyUnderTheirConditions : Prop :=
  (∀ i s t k, s.status = .running → exec i s = .next t →
    (t.status = .faulted k ↔ FaultCond i k s)) ∧
  ∀ s t k, s.status = .running → step s = .next t →
    (t.status = .faulted k ↔
      (k = .pcOutOfBounds ∧ s.mem.image.length.toNat ≤ s.pc.toNat) ∨
      (s.pc.toNat < s.mem.image.length.toNat ∧ FaultCond s.nextInstr k s))

/-- R230: a step that raises a fault writes no register, no array, no table entry and no stream; the pc
is the index of the word plus one, but for pc-out-of-bounds the out-of-range value itself; and no
further instruction is executed (log entries 3 and 4). -/
def Obligations.AFaultWritesNothing : Prop :=
  ∀ s t k, s.status = .running → step s = .next t → t.status = .faulted k →
    t.pc = (if k = .pcOutOfBounds then s.pc else s.pc + 1) ∧ SameRegs s t ∧
    SameBesidesRegs s t ∧ step t = .next t

/-- R113, R29: a running core leaves RUNNING only by HLT or by a fault, and HLT always halts; an ended
run changes no component of the state (log entry 4). -/
def Obligations.RunsEndOnlyByHltOrFault : Prop :=
  (∀ s t, s.status = .running → step s = .next t → t.status = .running ∨
    (t.status = .halted ∧ s.nextInstr = .hlt ∧ s.pc.toNat < s.mem.image.length.toNat) ∨
    ∃ k, t.status = .faulted k) ∧
  (∀ s t, s.Executes → s.nextInstr = .hlt → step s = .next t → t.status = .halted) ∧
  ∀ s t, s.status ≠ .running → step s = .next t → t = s

/-- R21: a step writes no register but the destination of the instruction it executes. -/
def Obligations.RegistersChangeOnlyAtTheDestination : Prop :=
  ∀ s t r, step s = .next t → t.reg r ≠ s.reg r →
    s.Executes ∧ destReg s.nextInstr = some r

/-- R203: after an instruction that leaves the core running and does not hold, the pc is R[C] for PRG, as
it was before, and the next word for every other instruction. -/
def Obligations.PcGoesOnOrJumps : Prop :=
  ∀ s t, s.Executes → step s = .next t → t.status = .running → ¬ Holds s.nextInstr s →
    (∀ b c, s.nextInstr = .prg b c → t.pc = s.reg c) ∧
    ((∀ b c, s.nextInstr ≠ .prg b c) → t.pc = s.pc + 1)

/-- R22, R111: the increment of a fetch that succeeds never wraps. The word fetched is the one at the pc
and the incremented pc is, as a number, the pc plus one; and so is the pc after every step that executes an
instruction and does not hold, but for a PRG that jumps. -/
def Obligations.FetchIncrementNeverWraps : Prop :=
  (∀ s w, fetch s = some w → s.mem.read 0 s.pc = .ok w ∧ s.advance.pc.toNat = s.pc.toNat + 1) ∧
  ∀ s t, s.Executes → step s = .next t → ¬ Holds s.nextInstr s →
    ((∀ b c, s.nextInstr ≠ .prg b c) ∨ ∃ k, t.status = .faulted k) →
    t.pc.toNat = s.pc.toNat + 1

/-- R31: a step emits nothing, or it executes OUT and appends the one byte R[C]. -/
def Obligations.OutputGrowsOnlyByOut : Prop :=
  ∀ s t, step s = .next t → t.outs = s.outs ∨
    ∃ c b, s.Executes ∧ s.nextInstr = .out c ∧ b.toNat = (s.reg c).toNat ∧
      t.outs = s.outs ++ [b]

/-- R30: a step reads no input, or it executes INP and takes the first byte. -/
def Obligations.InputIsReadOnlyByInp : Prop :=
  ∀ s t, step s = .next t → t.input = s.input ∨
    ∃ c b, s.Executes ∧ s.nextInstr = .inp c ∧ t.input.ended = s.input.ended ∧
      s.input.pending = b :: t.input.pending ∧ (t.reg c).toNat = b.toNat

/-- R193: the core never reads ahead: bytes behind the next one change nothing a step does. Only INP with
no delivered byte looks at whether there is one. -/
def Obligations.UnreadInputIsNotSeen : Prop :=
  ∀ s t more, (s.input.pending ≠ [] ∨ ∀ c, s.nextInstr ≠ .inp c) → step s = .next t →
    step (s.withMoreInput more) = .next (t.withMoreInput more)

/-- R194: while it holds, the step is not taken and the core stays as it is; when the host supplies a
byte or the end of input, or the sink becomes ready, the whole step happens (log entries 5, 6 and 9). -/
def Obligations.AHoldIsLiftedByTheHost : Prop :=
  (∀ s, s.Executes → Holds s.nextInstr s → step s = .next s) ∧
  (∀ s c b, s.Executes → s.nextInstr = .inp c → Holds (.inp c) s →
    ∃ t, step (s.deliver b) = .next t ∧ (t.reg c).toNat = b.toNat ∧ t.pc = s.pc + 1 ∧
      t.input = s.input) ∧
  (∀ s c, s.Executes → s.nextInstr = .inp c → Holds (.inp c) s →
    ∃ t, step s.endInput = .next t ∧ (t.reg c).toNat = 0xFFFFFFFF ∧ t.pc = s.pc + 1) ∧
  ∀ s c, s.Executes → s.nextInstr = .out c → Holds (.out c) s →
    ∃ t b, step (s.setOutReady true) = .next t ∧ t.outs = s.outs ++ [b] ∧
      b.toNat = (s.reg c).toNat ∧ t.pc = s.pc + 1

/-! ### Arrays -/

/-- R55: the length of an array never changes while the array lives, but for the image, which only PRG
replaces. -/
def Obligations.LengthsNeverChange : Prop :=
  ∀ s t id n m, s.Inv → step s = .next t → s.mem.len id = some n → t.mem.len id = some m →
    m = n ∨ (id = 0 ∧ ∃ b c, s.Executes ∧ s.nextInstr = .prg b c)

/-- R60, R54: an element of an array that is active before and after the step changes only by STA to its
address, which puts R[C] there, or by a PRG that replaces the image. -/
def Obligations.ElementsChangeOnlyByStaAndPrg : Prop :=
  ∀ s t id i v u, s.Inv → step s = .next t → s.mem.read id i = .ok v →
    t.mem.read id i = .ok u → u ≠ v → s.Executes ∧
      ((∃ a b c, s.nextInstr = .sta a b c ∧ s.reg a = id ∧ s.reg b = i ∧ u = s.reg c) ∨
       (id = 0 ∧ ∃ b c, s.nextInstr = .prg b c ∧ s.reg b ≠ 0))

/-- R25, R176: an identifier becomes active only by NEW, which returns it, and stops being active only by
DEL of it. -/
def Obligations.ArraysLiveFromNewToDel : Prop :=
  ∀ s t id, step s = .next t → s.mem.active id ≠ t.mem.active id → s.Executes ∧
    ((∃ b c, s.nextInstr = .new b c ∧ t.reg b = id ∧ t.mem.active id = true) ∨
     (∃ c, s.nextInstr = .del c ∧ s.reg c = id ∧ t.mem.active id = false))

/-- R142: after `STA` of `v` at `(id, i)`, `LDA` of `(id, i)` gives `v`, in whichever registers the
address is held; a load of any other address gives what it gave before. -/
def Obligations.LoadReturnsTheStoredWord : Prop :=
  ∀ a b c s, InBounds s.mem (s.reg a) (s.reg b) →
    ∃ t, exec (.sta a b c) s = .next t ∧
      (∀ x y z, s.reg y = s.reg a → s.reg z = s.reg b →
        ∃ u, exec (.lda x y z) t = .next u ∧ u.reg x = s.reg c) ∧
      ∀ x y z v, ¬ (s.reg y = s.reg a ∧ s.reg z = s.reg b) →
        s.mem.read (s.reg y) (s.reg z) = .ok v →
        ∃ u, exec (.lda x y z) t = .next u ∧ u.reg x = v

/-- R62: a store to identifier 0 is seen by the very next fetch of that word. -/
def Obligations.StoreToTheProgramIsFetched : Prop :=
  ∀ a b c s, s.status = .running → s.reg a = 0 →
    (s.reg b).toNat < s.mem.image.length.toNat →
    ∃ t, exec (.sta a b c) s = .next t ∧ t.mem.image.word (s.reg b).toNat = s.reg c ∧
      t.mem.image.length = s.mem.image.length ∧
      (t.pc = s.reg b → step t = exec (decode (s.reg c)) t)

/-- R63: after a PRG with R[B] = id != 0 that has room, a store to array id, and a DEL of id, leave array
0 what array id was at the moment of the PRG, and a store to array 0 leaves array id what it was then. -/
def Obligations.TheProgramCopyIsIndependent : Prop :=
  ∀ b c s n, s.reg b ≠ 0 → s.mem.len (s.reg b) = some n →
    ¬ ExceedsStore s (s.mem.used + n.toNat - s.mem.image.length.toNat) →
    ∃ t, exec (.prg b c) s = .next t ∧
      (∀ x y z, t.reg x = s.reg b → ∃ u, exec (.sta x y z) t = .next u ∧
        u.mem.len 0 = some n ∧ ∀ i, u.mem.read 0 i = s.mem.read (s.reg b) i) ∧
      (∀ x, t.reg x = s.reg b → ∃ u, exec (.del x) t = .next u ∧
        u.mem.active (s.reg b) = false ∧ u.mem.len 0 = some n ∧
        ∀ i, u.mem.read 0 i = s.mem.read (s.reg b) i) ∧
      ∀ x y z, t.reg x = 0 → ∃ u, exec (.sta x y z) t = .next u ∧
        u.mem.len (s.reg b) = some n ∧
        ∀ i, u.mem.read (s.reg b) i = s.mem.read (s.reg b) i

/-- R178, R67: after a DEL of id every LDA, STA, PRG and DEL naming id, through whichever register holds
it, faults, right after the DEL and however far a run with any input goes on, until a NEW returns id again;
and a NEW right after the DEL, the store having room, does return id, for a new array of zeros. -/
def Obligations.AFreedIdentifierIsReusedNext : Prop :=
  ∀ c s, s.reg c ≠ 0 → s.mem.active (s.reg c) = true →
    ∃ t, exec (.del c) s = .next t ∧
      (∀ inp n k,
        (∀ j < k, ¬ NewReturned (s.reg c) (Run.after inp j { core := t, given := n }).core
          (Run.after inp (j + 1) { core := t, given := n }).core) →
        EveryUseFaults (s.reg c) (Run.after inp k { core := t, given := n }).core) ∧
      ∀ b d, ¬ ExceedsStore t (t.mem.used + (t.reg d).toNat) →
        ∃ u, exec (.new b d) t = .next u ∧ u.reg b = s.reg c ∧
          u.mem.len (s.reg c) = some (t.reg d) ∧ u.free = s.free ∧
          ∀ i, i.toNat < (t.reg d).toNat → u.mem.read (s.reg c) i = .ok 0

/-- R177: what every implementation's `Allocate` satisfies: the head of the chain if there is one; else
an identifier from the old capacity up, inside the new capacity, with every other new slot on the
chain. -/
def Obligations.AllocateStaysInTheEnvelope : Prop :=
  ∀ n s id t, s.Inv → allocate n s = .ok (id, t) →
    (∀ h rest, s.free = h :: rest → id = h ∧ t.free = rest ∧ t.cap = s.cap) ∧
    (s.free = [] → s.cap ≤ id.toNat ∧ id.toNat < t.cap ∧
      ∀ j : Word, s.cap ≤ j.toNat → j.toNat < t.cap → j ≠ id → j ∈ t.free) ∧
    id ≠ 0 ∧ s.mem.active id = false ∧ t.mem.active id = true ∧ id ∉ t.free

/-- R27: the capacity only grows, only by NEW with an empty chain, and never beyond 2^32. -/
def Obligations.CapacityOnlyGrows : Prop :=
  ∀ s t, s.Inv → step s = .next t → t.cap ≤ 2 ^ 32 ∧
    (t.cap = s.cap ∨ (s.cap < t.cap ∧ s.free = [] ∧ s.Executes ∧
      ∃ b c, s.nextInstr = .new b c))

/-! ### Invariants -/

/-- The memory keeps its canonical form at every instruction (log entry 1). -/
def Obligations.MemoryStaysCanonical : Prop :=
  ∀ i s t, s.mem.wf → exec i s = .next t → t.mem.wf

/-- R24, R51 (log entry 1): two canonical memories in which the same arrays are active, with the same
lengths and the same words, are the same data. -/
def Obligations.EqualMemoriesAreEqualData : Prop :=
  ∀ m n : Memory, m.wf → n.wf → (∀ id, m.len id = n.len id) →
    (∀ id i, m.read id i = n.read id i) → m = n

/-- R28: the machine right after reset, with the empty image of log entry 7, meets the invariant. -/
def Obligations.InvariantHoldsAtReset : Prop := State.reset.Inv

/-- R28, R250: every state a run of a loaded program starts from meets the invariant. -/
def Obligations.InvariantHoldsAfterLoad : Prop :=
  ∀ limit bytes inp s, State.boot limit bytes inp = some s → s.Inv

/-- R28: the invariant is kept by every step. -/
def Obligations.InvariantKeptByEveryStep : Prop :=
  ∀ s t, s.Inv → step s = .next t → t.Inv

/-- R37: at reset, with the empty image of log entry 7 or a loaded one, the reduced state is REL = [],
NXT = 1. -/
def Obligations.ReducedStateAfterLoad : Prop :=
  Reduced State.reset [] 1 ∧
    ∀ limit bytes inp s, State.boot limit bytes inp = some s → Reduced s [] 1

/-- R37: the pair (REL, NXT) simulates (FREE, CAP): the relation is kept by every instruction, a NEW that
completes returns the head of REL if there is one and else NXT, and the reduced state moves as the rule
says. No identifier is left exactly when REL is empty and NXT = 2^32, and a NEW faults with alloc-exhausted
exactly then or when the store has no room (R173). -/
def Obligations.ReducedStateSimulatesTheChain : Prop :=
  (∀ i s t rel nxt, s.Inv → Reduced s rel nxt → s.status = .running → exec i s = .next t →
    ((∀ k, t.status ≠ .faulted k) →
      Reduced t (reducedAfter i s rel nxt).1 (reducedAfter i s rel nxt).2 ∧
      ∀ b c, i = .new b c → t.reg b = rel.head?.getD (BitVec.ofNat 32 nxt)) ∧
    (∀ k, t.status = .faulted k → Reduced t rel nxt) ∧
    ∀ b c, i = .new b c → (t.status = .faulted .allocExhausted ↔
      (rel = [] ∧ nxt = 2 ^ 32) ∨ ExceedsStore s (s.mem.used + (s.reg c).toNat))) ∧
  ∀ s rel nxt, s.Inv → Reduced s rel nxt →
    ((s.free = [] ∧ 2 ^ 32 ≤ s.cap) ↔ (rel = [] ∧ nxt = 2 ^ 32))

/-- R229: a finite store only adds alloc-exhausted: a step that does not end in it is the step of the
unbounded machine. -/
def Obligations.AFiniteStoreOnlyAddsExhaustion : Prop :=
  ∀ s t, step s = .next t → t.status ≠ .faulted .allocExhausted →
    step s.withoutLimit = .next t.withoutLimit

/-! ### Reset, load, runs -/

/-- R250: reset puts every component in its reset value from any state. That it may be applied again is
the spec's decision D21 (log entry 16). -/
def Obligations.ResetClearsEverything : Prop :=
  ∀ s bytes inp t, State.hostReset s bytes inp = some t →
    (∀ r, t.reg r = 0) ∧ t.pc = 0 ∧ loadImage s.memWords bytes = some t.mem.image ∧
    (∀ id, t.mem.active id = true ↔ id = 0) ∧ t.free = [] ∧ t.cap = 1 ∧ t.status = .running ∧
    t.outs = [] ∧ t.input = inp

/-- R252, R253: word k of the image is bytes 4k to 4k+3, big-endian; the 1 to 3 trailing bytes are
dropped; the load is refused exactly when the program has more than 2^32 - 1 words or more than a finite
store holds (the spec's decisions D11 and D12; log entry 15). -/
def Obligations.LoadReadsBigEndianWords : Prop :=
  (∀ limit bytes d, loadImage limit bytes = some d →
    d.length.toNat = bytes.length / 4 ∧
    ∀ k < bytes.length / 4, (d.word k).toNat =
      (bytes.getD (4 * k) 0).toNat * 2 ^ 24 + (bytes.getD (4 * k + 1) 0).toNat * 2 ^ 16 +
      (bytes.getD (4 * k + 2) 0).toNat * 2 ^ 8 + (bytes.getD (4 * k + 3) 0).toNat) ∧
  ∀ limit bytes, loadImage limit bytes = none ↔
    2 ^ 32 - 1 < bytes.length / 4 ∨ ∃ m, limit = .words m ∧ m < bytes.length / 4

/-- R254: a stream of fewer than 4 bytes loads the empty program, and the first fetch is
pc-out-of-bounds, code 7, with no output. That `State.reset` is this load, with no input delivered, is
the model's choice (log entries 7 and 8). -/
def Obligations.AnEmptyProgramFaultsAtOnce : Prop :=
  ∀ limit bytes inp, bytes.length < 4 → ∃ s t, State.boot limit bytes inp = some s ∧
    (limit = .unbounded → inp = { pending := [], ended := false } → s = State.reset) ∧
    step s = .next t ∧ t.status = .faulted .pcOutOfBounds ∧ t.status.code = some 7 ∧
    t.outs = [] ∧ t.pc = 0

/-- R221: no code while running, zero exactly for HALTED, and a distinct code for each status (the
spec's decision D8, log entry 16). -/
def Obligations.StatusCodesTellStatusesApart : Prop :=
  (∀ x : Status, (x.code = none ↔ x = .running) ∧ (x.code = some 0 ↔ x = .halted)) ∧
  (∀ x y : Status, x.code = y.code → x = y) ∧
  ∀ (k : Fault) n, Status.code (.faulted k) = some n → 1 ≤ n ∧ n ≤ 8

/-- R257, R116: a run is a function of the program and the input stream, finite or infinite: when the load
is accepted there is exactly one observation, an end with its output and code or a divergence with its
finite or infinite sequence of bytes; when the load is refused there is none. -/
def Obligations.ARunHasOneResult : Prop :=
  (∀ limit bytes inp r, Run.start limit bytes = some r → ∃! o, RunIs limit bytes inp o) ∧
  ∀ limit bytes inp o, Run.start limit bytes = none → ¬ RunIs limit bytes inp o

/-- R192: bytes emitted are never taken back, however the run goes on, with any input stream or with the
core alone, and they stay in order. -/
def Obligations.OutputIsNeverTakenBack : Prop :=
  (∀ inp r j k, (Run.after inp j r).core.outs <+: (Run.after inp (j + k) r).core.outs) ∧
  ∀ s j k, (runSteps j s).outs <+: (runSteps (j + k) s).outs

/-- R193, R194: in a run, an INP that finds nothing transferred takes the next byte of the stream,
zero-extended, and the host has handed over one byte more; at the end of a finite stream it takes
0xFFFFFFFF; where the host stalls nothing happens (log entries 5 and 9). An infinite stream has a byte for every
INP. -/
def Obligations.InpTakesTheNextByteOfTheStream : Prop :=
  ∀ (inp : InputStream) (r : Run) (c : RegId), r.core.Executes → r.core.nextInstr = .inp c → Holds (.inp c) r.core →
    (∀ b, inp.transfer r.given = some (.byte b) →
      ((r.next inp).core.reg c).toNat = b.toNat ∧ (r.next inp).given = r.given + 1 ∧
      (r.next inp).core.input = r.core.input ∧ (r.next inp).core.pc = r.core.pc + 1) ∧
    (inp.transfer r.given = some .endOfInput →
      ((r.next inp).core.reg c).toNat = 0xFFFFFFFF ∧ (r.next inp).given = r.given ∧
      (r.next inp).core.pc = r.core.pc + 1) ∧
    (inp.transfer r.given = none → r.next inp = r) ∧
    (∀ byteAt, inp = .infinite byteAt →
      ((r.next inp).core.reg c).toNat = (byteAt r.given).toNat)

/-- R193: "the core never looks ahead": a run goes the same with two streams that agree on the bytes
handed over and on what comes next, whatever, finite or infinite, lies behind. -/
def Obligations.ARunSeesOnlyTheBytesHandedOver : Prop :=
  ∀ (inp inp' : InputStream) (k : Nat) (r : Run),
    (∀ j ≤ (Run.after inp k r).given, inp'.transfer j = inp.transfer j) →
    Run.after inp' k r = Run.after inp k r

/-- R193: "for a run whose whole input is known at reset": the run with a finite stream is the run of the
core alone with the whole stream and its end delivered at reset, but for the bytes not yet read, which the
host still has. -/
def Obligations.AFiniteStreamMayBeDeliveredAtReset : Prop :=
  ∀ limit bytes (stream : List Byte) (r : Run) (s : State),
    Run.start limit bytes = some r →
    State.boot limit bytes { pending := stream, ended := true } = some s →
    ∀ k, runSteps k s =
      (Run.after (.finite stream) k r).core.setInput
        { pending := stream.drop (Run.after (.finite stream) k r).given, ended := true }
end

