-- ==== Sys2Proof/Laws/Encoding.lean ====
section
/-! SUPPORT. The fields of a word, and the words the encoder makes, as numbers. -/

namespace Sys2Proof

/-- There are sixteen opcodes. -/
theorem opcodeOf_lt (w : Word) : opcodeOf w < 16 := by
  unfold opcodeOf slice
  omega

theorem opcodeOf_eq (w : Word) : opcodeOf w = w.toNat / 2 ^ 28 := by
  have := w.isLt
  unfold opcodeOf slice
  omega

theorem fieldA_val (w : Word) : (fieldA w).val = w.toNat / 2 ^ 6 % 8 := by
  simp [fieldA, slice, Fin.ofNat]

theorem fieldB_val (w : Word) : (fieldB w).val = w.toNat / 2 ^ 3 % 8 := by
  simp [fieldB, slice, Fin.ofNat]

theorem fieldC_val (w : Word) : (fieldC w).val = w.toNat % 8 := by
  simp [fieldC, slice, Fin.ofNat]

theorem fieldLdiReg_val (w : Word) : (fieldLdiReg w).val = w.toNat / 2 ^ 25 % 8 := by
  simp [fieldLdiReg, slice, Fin.ofNat]

theorem fieldLdiImm_toNat (w : Word) : (fieldLdiImm w).toNat = w.toNat % 2 ^ 25 := by
  simp [fieldLdiImm, slice]

/-- The number of a format R word (R95). -/
theorem encodeR_toNat {op : Nat} (h : op < 16) (a b c : RegId) :
    (encodeR op a b c).toNat = op * 2 ^ 28 + a.val * 64 + b.val * 8 + c.val := by
  unfold encodeR
  rw [BitVec.toNat_ofNat]
  omega

/-- The number of a format I word (R95). -/
theorem encodeI_toNat (r : RegId) (imm : Imm25) :
    (encodeI r imm).toNat = 0xD0000000 + r.val * 0x02000000 + imm.toNat := by
  have := imm.isLt
  unfold encodeI
  rw [BitVec.toNat_ofNat]
  omega

/-- The canonical words as numbers. -/
theorem Word.canonical_iff (w : Word) :
    w.canonical = true ↔ w.toNat % 2 ^ 28 < 2 ^ operandBits (w.toNat / 2 ^ 28) := by
  unfold Word.canonical
  exact decide_eq_true_iff

/-- The decoder keeps the opcode. -/
theorem decode_opcode (w : Word) : (decode w).opcode = opcodeOf w := by
  have := opcodeOf_lt w
  unfold decode
  split <;> simp_all [Instr.opcode]
  omega

end Sys2Proof
end

