-- ==== Sys2Proof/Laws/KeyMap.lean ====
section
/-! SUPPORT. The laws of partial maps: read after write, and the canonical form is kept. -/

namespace Sys2Proof.Machine

variable {α : Type}

/-- Read after write. -/
@[simp] theorem KeyMap.get_put_self (m : List (Nat × α)) (k : Nat) (v : α) :
    KeyMap.get (KeyMap.put m k v) k = some v := by
  induction m with
  | nil => simp [KeyMap.put, KeyMap.get]
  | cons p rest ih =>
    obtain ⟨j, u⟩ := p
    simp only [KeyMap.put]
    split
    · simp [KeyMap.get]
    · split
      · simp [KeyMap.get]
      · simp [KeyMap.get, *]

/-- A write leaves every other key alone. -/
theorem KeyMap.get_put_other (m : List (Nat × α)) {k l : Nat} (v : α) (h : l ≠ k) :
    KeyMap.get (KeyMap.put m k v) l = KeyMap.get m l := by
  induction m with
  | nil => simp [KeyMap.put, KeyMap.get, h.symm]
  | cons p rest ih =>
    obtain ⟨j, u⟩ := p
    simp only [KeyMap.put]
    split
    · simp [KeyMap.get, h.symm]
    · split
      · subst j; simp [KeyMap.get, h.symm]
      · simp [KeyMap.get, ih]

/-- A deleted key is gone. -/
@[simp] theorem KeyMap.get_del_self (m : List (Nat × α)) (k : Nat) :
    KeyMap.get (KeyMap.del m k) k = none := by
  induction m with
  | nil => rfl
  | cons p rest ih =>
    obtain ⟨j, u⟩ := p
    by_cases h : j = k
    · simpa [KeyMap.del, h] using ih
    · simpa [KeyMap.del, h, KeyMap.get] using ih

/-- A deletion leaves every other key alone. -/
theorem KeyMap.get_del_other (m : List (Nat × α)) {k l : Nat} (h : l ≠ k) :
    KeyMap.get (KeyMap.del m k) l = KeyMap.get m l := by
  induction m with
  | nil => rfl
  | cons p rest ih =>
    obtain ⟨j, u⟩ := p
    by_cases hj : j = k
    · subst j; simpa [KeyMap.del, KeyMap.get, h.symm] using ih
    · simpa [KeyMap.del, hj, KeyMap.get] using congrArg (fun x => if j = l then some u else x) ih

/-- A key that is read is listed. -/
theorem KeyMap.mem_of_get {m : List (Nat × α)} {k : Nat} {v : α} (h : KeyMap.get m k = some v) :
    (k, v) ∈ m := by
  induction m with
  | nil => simp [KeyMap.get] at h
  | cons p rest ih =>
    obtain ⟨j, u⟩ := p
    simp only [KeyMap.get] at h
    split at h
    · simp_all
    · exact List.mem_cons_of_mem _ (ih h)

/-- In the canonical form a listed key is read. -/
theorem KeyMap.get_of_mem {m : List (Nat × α)} (hm : KeyMap.Rising m) {k : Nat} {v : α}
    (h : (k, v) ∈ m) : KeyMap.get m k = some v := by
  induction m with
  | nil => simp at h
  | cons p rest ih =>
    obtain ⟨j, u⟩ := p
    simp only [KeyMap.Rising, List.map_cons, List.pairwise_cons] at hm
    rcases List.mem_cons.1 h with h | h
    · simp_all [KeyMap.get]
    · have := hm.1 k (List.mem_map.2 ⟨_, h, rfl⟩)
      have hjk : j ≠ k := by omega
      simpa [KeyMap.get, hjk] using ih hm.2 h

/-- What a write lists: the new pair and old ones. -/
theorem KeyMap.mem_put {m : List (Nat × α)} {k : Nat} {v : α} {p : Nat × α}
    (h : p ∈ KeyMap.put m k v) : p = (k, v) ∨ p ∈ m := by
  induction m with
  | nil => simpa [KeyMap.put] using h
  | cons q rest ih =>
    obtain ⟨j, u⟩ := q
    simp only [KeyMap.put] at h
    split at h
    · simpa using h
    · split at h
      · rcases List.mem_cons.1 h with h | h
        · exact .inl h
        · exact .inr (List.mem_cons_of_mem _ h)
      · rcases List.mem_cons.1 h with h | h
        · exact .inr (by simp [h])
        · rcases ih h with h | h
          · exact .inl h
          · exact .inr (List.mem_cons_of_mem _ h)

/-- What a deletion lists was listed before. -/
theorem KeyMap.mem_del {m : List (Nat × α)} {k : Nat} {p : Nat × α} (h : p ∈ KeyMap.del m k) :
    p ∈ m := (List.mem_filter.1 h).1

/-- A write keeps the canonical form. -/
theorem KeyMap.rising_put {m : List (Nat × α)} (hm : KeyMap.Rising m) (k : Nat) (v : α) :
    KeyMap.Rising (KeyMap.put m k v) := by
  induction m with
  | nil => simp [KeyMap.put, KeyMap.Rising]
  | cons p rest ih =>
    obtain ⟨j, u⟩ := p
    simp only [KeyMap.Rising, List.map_cons, List.pairwise_cons, List.mem_map, forall_exists_index,
      and_imp, forall_apply_eq_imp_iff₂] at hm
    simp only [KeyMap.put]
    split
    · rename_i hkj
      simp only [KeyMap.Rising, List.map_cons, List.pairwise_cons, List.mem_cons, List.mem_map,
        forall_eq_or_imp, forall_exists_index, and_imp, forall_apply_eq_imp_iff₂]
      exact ⟨⟨hkj, fun q hq => lt_trans hkj (hm.1 q hq)⟩, hm.1, hm.2⟩
    · split
      · subst j
        simpa [KeyMap.Rising, List.map_cons, List.pairwise_cons] using hm
      · rename_i h1 h2
        simp only [KeyMap.Rising, List.map_cons, List.pairwise_cons, List.mem_map,
          forall_exists_index, and_imp, forall_apply_eq_imp_iff₂]
        refine ⟨fun q hq => ?_, ih hm.2⟩
        rcases KeyMap.mem_put hq with rfl | hq
        · show j < k
          omega
        · exact hm.1 q hq

/-- A deletion keeps the canonical form. -/
theorem KeyMap.rising_del {m : List (Nat × α)} (hm : KeyMap.Rising m) (k : Nat) :
    KeyMap.Rising (KeyMap.del m k) :=
  hm.sublist (List.Sublist.map _ List.filter_sublist)

/-- The sum of a measure after a write of an absent key. -/
theorem KeyMap.sum_put_absent (f : α → Nat) {m : List (Nat × α)} {k : Nat} (v : α)
    (h : KeyMap.get m k = none) :
    ((KeyMap.put m k v).map fun p => f p.2).sum = (m.map fun p => f p.2).sum + f v := by
  induction m with
  | nil => simp [KeyMap.put]
  | cons p rest ih =>
    obtain ⟨j, u⟩ := p
    simp only [KeyMap.get] at h
    split at h
    · simp at h
    · rename_i hjk
      simp only [KeyMap.put, hjk, if_false]
      split
      · simp; omega
      · simp [ih h]; omega

/-- The sum of a measure after a write of a key whose old value has the same measure. -/
theorem KeyMap.sum_put_same (f : α → Nat) {m : List (Nat × α)} (hm : KeyMap.Rising m) {k : Nat}
    {u v : α} (h : KeyMap.get m k = some u) (huv : f v = f u) :
    ((KeyMap.put m k v).map fun p => f p.2).sum = (m.map fun p => f p.2).sum := by
  induction m with
  | nil => simp [KeyMap.get] at h
  | cons p rest ih =>
    obtain ⟨j, w⟩ := p
    simp only [KeyMap.Rising, List.map_cons, List.pairwise_cons] at hm
    simp only [KeyMap.get] at h
    split at h
    · rename_i hjk
      subst j
      cases h
      simp [KeyMap.put, huv]
    · rename_i hjk
      have hlt : j < k := hm.1 k (List.mem_map.2 ⟨_, KeyMap.mem_of_get h, rfl⟩)
      have : ¬ k < j := by omega
      simp [KeyMap.put, this, hjk, ih hm.2 h]

/-- The sum of a measure does not grow at a deletion. -/
theorem KeyMap.sum_del_le (f : α → Nat) (m : List (Nat × α)) (k : Nat) :
    ((KeyMap.del m k).map fun p => f p.2).sum ≤ (m.map fun p => f p.2).sum :=
  List.Sublist.sum_le_sum (List.Sublist.map _ List.filter_sublist) (by simp)

end Sys2Proof.Machine
end

