-- ==== Sys2Proof/Laws/Memory.lean ====
section
/-! SUPPORT. The laws of the array space: what is read after each operation, the canonical form, and the
storage in use. -/

namespace Sys2Proof.Machine

/-! ### Arrays -/

@[simp] theorem Descriptor.store_length (d : Descriptor) (i : Nat) (v : Word) :
    (d.store i v).length = d.length := rfl

@[simp] theorem Descriptor.zeros_length (n : Word) : (Descriptor.zeros n).length = n := rfl

/-- A new array reads 0 everywhere. -/
@[simp] theorem Descriptor.zeros_word (n : Word) (i : Nat) : (Descriptor.zeros n).word i = 0 := rfl

/-- Read after write. -/
@[simp] theorem Descriptor.store_word_self (d : Descriptor) (i : Nat) (v : Word) :
    (d.store i v).word i = v := by
  unfold Descriptor.word Descriptor.store
  split <;> simp_all

/-- A write leaves every other element alone. -/
theorem Descriptor.store_word_other (d : Descriptor) {i j : Nat} (v : Word) (h : j ≠ i) :
    (d.store i v).word j = d.word j := by
  unfold Descriptor.word Descriptor.store
  split
  · simp [KeyMap.get_del_other _ h]
  · simp [KeyMap.get_put_other _ _ h]

theorem Descriptor.zeros_wf (n : Word) : (Descriptor.zeros n).wf := by
  simp [Descriptor.wf, Descriptor.zeros, KeyMap.Rising]

/-- A write inside the array keeps the canonical form. -/
theorem Descriptor.store_wf {d : Descriptor} (hd : d.wf) {i : Nat} (hi : i < d.length.toNat)
    (v : Word) : (d.store i v).wf := by
  unfold Descriptor.store
  split
  · exact ⟨KeyMap.rising_del hd.1 i, fun p hp => hd.2 p (KeyMap.mem_del hp)⟩
  · rename_i hv
    refine ⟨KeyMap.rising_put hd.1 i v, fun p hp => ?_⟩
    rcases KeyMap.mem_put hp with rfl | hp
    · exact ⟨hi, hv⟩
    · exact hd.2 p hp

/-! ### The array table -/

@[simp] theorem Memory.find_zero (m : Memory) : m.find 0 = some m.image := rfl

@[simp] theorem Memory.setImage_image (m : Memory) (d : Descriptor) : (m.setImage d).image = d := rfl

@[simp] theorem Memory.setImage_arrays (m : Memory) (d : Descriptor) :
    (m.setImage d).arrays = m.arrays := rfl

@[simp] theorem Memory.bind_find_self (m : Memory) (id : Word) (d : Descriptor) :
    (m.bind id d).find id = some d := by
  unfold Memory.bind Memory.find
  split <;> simp_all

theorem Memory.bind_find_other (m : Memory) {id x : Word} (d : Descriptor) (h : x ≠ id) :
    (m.bind id d).find x = m.find x := by
  have hn : x.toNat ≠ id.toNat := fun e => h (BitVec.eq_of_toNat_eq e)
  unfold Memory.bind Memory.find
  by_cases hx : x = 0
  · have hid : id ≠ 0 := fun e => h (hx.trans e.symm)
    rw [if_pos hx, if_pos hx, if_neg hid]
  · rw [if_neg hx, if_neg hx]
    split
    · rfl
    · exact KeyMap.get_put_other _ _ hn

theorem Memory.unbind_find_self (m : Memory) {id : Word} (h : id ≠ 0) :
    (m.unbind id).find id = none := by
  rw [Memory.find, if_neg h]
  exact KeyMap.get_del_self _ _

theorem Memory.unbind_find_other (m : Memory) {id x : Word} (h : x ≠ id) :
    (m.unbind id).find x = m.find x := by
  have hn : x.toNat ≠ id.toNat := fun e => h (BitVec.eq_of_toNat_eq e)
  simp [Memory.unbind, Memory.find, KeyMap.get_del_other _ hn]

/-- The image replaced: every other identifier reads what it read. -/
theorem Memory.setImage_find_other (m : Memory) (d : Descriptor) {x : Word} (h : x ≠ 0) :
    (m.setImage d).find x = m.find x := by
  rw [Memory.find, Memory.find, if_neg h, if_neg h]
  rfl

/-- What an access sees is decided by what `find` answers. -/
theorem Memory.read_congr {m m' : Memory} {id : Word} (h : m'.find id = m.find id) (i : Word) :
    m'.read id i = m.read id i := by
  simp [Memory.read, Memory.lookup, h]

theorem Memory.len_congr {m m' : Memory} {id : Word} (h : m'.find id = m.find id) :
    m'.len id = m.len id := by
  simp [Memory.len, h]

theorem Memory.read_inside {m : Memory} {id i : Word} {d : Descriptor} (h : m.find id = some d)
    (hi : i.toNat < d.length.toNat) : m.read id i = .ok (d.word i.toNat) := by
  simp [Memory.read, Memory.lookup, h, hi]

theorem Memory.write_inside {m : Memory} {id i : Word} (v : Word) {d : Descriptor}
    (h : m.find id = some d) (hi : i.toNat < d.length.toNat) :
    m.write id i v = .ok (m.bind id (d.store i.toNat v)) := by
  simp [Memory.write, Memory.lookup, h, hi]

/-- Everything a read can answer. -/
theorem Memory.read_cases (m : Memory) (id i : Word) :
    (∃ d, m.find id = some d ∧ i.toNat < d.length.toNat ∧ m.read id i = .ok (d.word i.toNat)) ∨
    ((∀ d, m.find id = some d → d.length.toNat ≤ i.toNat) ∧ m.read id i = .error .inactiveArray) := by
  cases h : m.find id with
  | none => exact .inr ⟨by simp, by simp [Memory.read, Memory.lookup, h]⟩
  | some d =>
    by_cases hi : i.toNat < d.length.toNat
    · exact .inl ⟨d, rfl, hi, Memory.read_inside h hi⟩
    · refine .inr ⟨?_, by simp [Memory.read, Memory.lookup, h, hi]⟩
      rintro d' ⟨⟩
      omega

/-- Everything a write can answer. -/
theorem Memory.write_cases (m : Memory) (id i v : Word) :
    (∃ d, m.find id = some d ∧ i.toNat < d.length.toNat ∧
      m.write id i v = .ok (m.bind id (d.store i.toNat v))) ∨
    ((∀ d, m.find id = some d → d.length.toNat ≤ i.toNat) ∧
      m.write id i v = .error .inactiveArray) := by
  cases h : m.find id with
  | none => exact .inr ⟨by simp, by simp [Memory.write, Memory.lookup, h]⟩
  | some d =>
    by_cases hi : i.toNat < d.length.toNat
    · exact .inl ⟨d, rfl, hi, Memory.write_inside v h hi⟩
    · refine .inr ⟨?_, by simp [Memory.write, Memory.lookup, h, hi]⟩
      rintro d' ⟨⟩
      omega

/-! ### The canonical form is kept -/

/-- Every array found in a canonical memory is canonical. -/
theorem Memory.find_wf {m : Memory} (hm : m.wf) {id : Word} {d : Descriptor}
    (h : m.find id = some d) : d.wf := by
  unfold Memory.find at h
  split at h
  · cases h; exact hm.1
  · exact (hm.2.2 _ (KeyMap.mem_of_get h)).2.2

theorem Memory.bind_wf {m : Memory} (hm : m.wf) (id : Word) {d : Descriptor} (hd : d.wf) :
    (m.bind id d).wf := by
  unfold Memory.bind
  split
  · exact ⟨hd, hm.2⟩
  · rename_i hid
    refine ⟨hm.1, KeyMap.rising_put hm.2.1 _ _, fun p hp => ?_⟩
    rcases KeyMap.mem_put hp with rfl | hp
    · refine ⟨?_, id.isLt, hd⟩
      show 0 < id.toNat
      have : id.toNat ≠ 0 := fun e => hid (BitVec.eq_of_toNat_eq e)
      omega
    · exact hm.2.2 p hp

theorem Memory.unbind_wf {m : Memory} (hm : m.wf) (id : Word) : (m.unbind id).wf :=
  ⟨hm.1, KeyMap.rising_del hm.2.1 _, fun p hp => hm.2.2 p (KeyMap.mem_del hp)⟩

theorem Memory.setImage_wf {m : Memory} (hm : m.wf) {d : Descriptor} (hd : d.wf) :
    (m.setImage d).wf := ⟨hd, hm.2⟩

theorem Memory.write_wf {m m' : Memory} (hm : m.wf) {id i v : Word}
    (h : m.write id i v = .ok m') : m'.wf := by
  rcases m.write_cases id i v with ⟨d, hd, hi, hw⟩ | ⟨-, hw⟩
  · rw [hw] at h
    cases h
    exact Memory.bind_wf hm id (Descriptor.store_wf (Memory.find_wf hm hd) hi v)
  · rw [hw] at h
    cases h

/-- The memory at reset is canonical. -/
theorem State.reset_mem_wf : State.reset.mem.wf := by decide

/-! ### The array of a list of words -/

theorem storageOf_ge {k : Nat} {ws : List Word} {p : Nat × Word} (h : p ∈ storageOf k ws) :
    k ≤ p.1 ∧ p.1 < k + ws.length ∧ p.2 ≠ 0 := by
  induction ws generalizing k with
  | nil => simp [storageOf] at h
  | cons w rest ih =>
    simp only [storageOf] at h
    split at h
    · have := ih h
      simp only [List.length_cons]
      refine ⟨by omega, by omega, this.2.2⟩
    · rcases List.mem_cons.1 h with rfl | h
      · exact ⟨le_refl _, by simp, by assumption⟩
      · have := ih h
        simp only [List.length_cons]
        refine ⟨by omega, by omega, this.2.2⟩

theorem storageOf_rising (k : Nat) (ws : List Word) : KeyMap.Rising (storageOf k ws) := by
  induction ws generalizing k with
  | nil => simp [storageOf, KeyMap.Rising]
  | cons w rest ih =>
    simp only [storageOf]
    split
    · exact ih _
    · simp only [KeyMap.Rising, List.map_cons, List.pairwise_cons, List.mem_map,
        forall_exists_index, and_imp, forall_apply_eq_imp_iff₂]
      exact ⟨fun q hq => (storageOf_ge hq).1, ih _⟩

/-- Element `i` of the array of a list of words is word `i` of the list. -/
theorem storageOf_word (k : Nat) (ws : List Word) (i : Nat) :
    (KeyMap.get (storageOf k ws) (k + i)).getD 0 = ws.getD i 0 := by
  induction ws generalizing k i with
  | nil => simp [storageOf, KeyMap.get]
  | cons w rest ih =>
    cases i with
    | zero =>
      simp only [storageOf]
      split
      · rename_i hw
        have : KeyMap.get (storageOf (k + 1) rest) k = none := by
          cases hg : KeyMap.get (storageOf (k + 1) rest) k with
          | none => rfl
          | some v =>
            have h1 : k + 1 ≤ k := (storageOf_ge (KeyMap.mem_of_get hg)).1
            omega
        simp [this, hw]
      · simp [KeyMap.get]
    | succ i =>
      have h := ih (k + 1) i
      rw [show k + 1 + i = k + (i + 1) by omega] at h
      simp only [storageOf]
      split
      · simpa using h
      · have : k ≠ k + (i + 1) := by omega
        simpa [KeyMap.get, this] using h

theorem Descriptor.ofWords_word (ws : List Word) (i : Nat) :
    (Descriptor.ofWords ws).word i = ws.getD i 0 := by
  simpa [Descriptor.ofWords, Descriptor.word] using storageOf_word 0 ws i

theorem Descriptor.ofWords_wf {ws : List Word} (h : ws.length < 2 ^ 32) :
    (Descriptor.ofWords ws).wf := by
  refine ⟨storageOf_rising 0 ws, fun p hp => ?_⟩
  have := storageOf_ge hp
  refine ⟨?_, this.2.2⟩
  simp only [Descriptor.ofWords, BitVec.toNat_ofNat]
  rw [Nat.mod_eq_of_lt h]
  omega

/-- The place operation of `withFetchWord` puts the word where the fetch reads it. -/
theorem Descriptor.place_word (d : Descriptor) (n : Nat) (w : Word) : (d.place n w).word n = w := by
  unfold Descriptor.place
  split <;> simp

/-! ### The storage in use -/

/-- Binding an inactive identifier adds the length of its array. -/
theorem Memory.used_bind_inactive {m : Memory} {id : Word} (d : Descriptor) (h : m.find id = none) :
    (m.bind id d).used = m.used + d.length.toNat := by
  unfold Memory.find at h
  split at h
  · cases h
  · rename_i hid
    have := KeyMap.sum_put_absent (fun d : Descriptor => d.length.toNat) d h
    simp only [Memory.bind, hid, if_false, Memory.used, this]
    omega

/-- Binding an active identifier to an array of the same length adds nothing. -/
theorem Memory.used_bind_same {m : Memory} (hm : m.wf) {id : Word} {d d' : Descriptor}
    (h : m.find id = some d) (hl : d'.length = d.length) : (m.bind id d').used = m.used := by
  unfold Memory.find at h
  split at h
  · rename_i hid
    cases h
    simp [Memory.bind, hid, Memory.used, hl]
  · rename_i hid
    have := KeyMap.sum_put_same (fun d : Descriptor => d.length.toNat) hm.2.1 h
      (v := d') (by simp [hl])
    simp only [Memory.bind, hid, if_false, Memory.used, this]

theorem Memory.used_unbind_le (m : Memory) (id : Word) : (m.unbind id).used ≤ m.used := by
  have := KeyMap.sum_del_le (fun d : Descriptor => d.length.toNat) m.arrays id.toNat
  simp only [Memory.unbind, Memory.used]
  omega

theorem Memory.used_setImage (m : Memory) (d : Descriptor) :
    (m.setImage d).used = m.used + d.length.toNat - m.image.length.toNat := by
  simp only [Memory.used, Memory.setImage_image, Memory.setImage_arrays]
  omega

end Sys2Proof.Machine
end

