-- ==== Sys2Proof/Laws/State.lean ====
section
/-! SUPPORT. What each update of the state does to each field, each true by `rfl`, and the laws of the
register file. -/

namespace Sys2Proof.Machine

/-! ### `setReg` -/

@[simp] theorem State.setReg_regs (s : State) (r : RegId) (v : Word) : (s.setReg r v).regs = s.regs.set r.val v := rfl
@[simp] theorem State.setReg_pc (s : State) (r : RegId) (v : Word) : (s.setReg r v).pc = s.pc := rfl
@[simp] theorem State.setReg_mem (s : State) (r : RegId) (v : Word) : (s.setReg r v).mem = s.mem := rfl
@[simp] theorem State.setReg_free (s : State) (r : RegId) (v : Word) : (s.setReg r v).free = s.free := rfl
@[simp] theorem State.setReg_cap (s : State) (r : RegId) (v : Word) : (s.setReg r v).cap = s.cap := rfl
@[simp] theorem State.setReg_status (s : State) (r : RegId) (v : Word) : (s.setReg r v).status = s.status := rfl
@[simp] theorem State.setReg_input (s : State) (r : RegId) (v : Word) : (s.setReg r v).input = s.input := rfl
@[simp] theorem State.setReg_outs (s : State) (r : RegId) (v : Word) : (s.setReg r v).outs = s.outs := rfl
@[simp] theorem State.setReg_outReady (s : State) (r : RegId) (v : Word) : (s.setReg r v).outReady = s.outReady := rfl
@[simp] theorem State.setReg_memWords (s : State) (r : RegId) (v : Word) : (s.setReg r v).memWords = s.memWords := rfl

/-! ### `advance` -/

@[simp] theorem State.advance_regs (s : State) : (s.advance).regs = s.regs := rfl
@[simp] theorem State.advance_pc (s : State) : (s.advance).pc = s.pc + 1 := rfl
@[simp] theorem State.advance_mem (s : State) : (s.advance).mem = s.mem := rfl
@[simp] theorem State.advance_free (s : State) : (s.advance).free = s.free := rfl
@[simp] theorem State.advance_cap (s : State) : (s.advance).cap = s.cap := rfl
@[simp] theorem State.advance_status (s : State) : (s.advance).status = s.status := rfl
@[simp] theorem State.advance_input (s : State) : (s.advance).input = s.input := rfl
@[simp] theorem State.advance_outs (s : State) : (s.advance).outs = s.outs := rfl
@[simp] theorem State.advance_outReady (s : State) : (s.advance).outReady = s.outReady := rfl
@[simp] theorem State.advance_memWords (s : State) : (s.advance).memWords = s.memWords := rfl
@[simp] theorem State.advance_reg (s : State) (q : RegId) : (s.advance).reg q = s.reg q := rfl

/-! ### `jump` -/

@[simp] theorem State.jump_regs (s : State) (t : Word) : (s.jump t).regs = s.regs := rfl
@[simp] theorem State.jump_pc (s : State) (t : Word) : (s.jump t).pc = t := rfl
@[simp] theorem State.jump_mem (s : State) (t : Word) : (s.jump t).mem = s.mem := rfl
@[simp] theorem State.jump_free (s : State) (t : Word) : (s.jump t).free = s.free := rfl
@[simp] theorem State.jump_cap (s : State) (t : Word) : (s.jump t).cap = s.cap := rfl
@[simp] theorem State.jump_status (s : State) (t : Word) : (s.jump t).status = s.status := rfl
@[simp] theorem State.jump_input (s : State) (t : Word) : (s.jump t).input = s.input := rfl
@[simp] theorem State.jump_outs (s : State) (t : Word) : (s.jump t).outs = s.outs := rfl
@[simp] theorem State.jump_outReady (s : State) (t : Word) : (s.jump t).outReady = s.outReady := rfl
@[simp] theorem State.jump_memWords (s : State) (t : Word) : (s.jump t).memWords = s.memWords := rfl
@[simp] theorem State.jump_reg (s : State) (t : Word) (q : RegId) : (s.jump t).reg q = s.reg q := rfl

/-! ### `setStatus` -/

@[simp] theorem State.setStatus_regs (s : State) (x : Status) : (s.setStatus x).regs = s.regs := rfl
@[simp] theorem State.setStatus_pc (s : State) (x : Status) : (s.setStatus x).pc = s.pc := rfl
@[simp] theorem State.setStatus_mem (s : State) (x : Status) : (s.setStatus x).mem = s.mem := rfl
@[simp] theorem State.setStatus_free (s : State) (x : Status) : (s.setStatus x).free = s.free := rfl
@[simp] theorem State.setStatus_cap (s : State) (x : Status) : (s.setStatus x).cap = s.cap := rfl
@[simp] theorem State.setStatus_status (s : State) (x : Status) : (s.setStatus x).status = x := rfl
@[simp] theorem State.setStatus_input (s : State) (x : Status) : (s.setStatus x).input = s.input := rfl
@[simp] theorem State.setStatus_outs (s : State) (x : Status) : (s.setStatus x).outs = s.outs := rfl
@[simp] theorem State.setStatus_outReady (s : State) (x : Status) : (s.setStatus x).outReady = s.outReady := rfl
@[simp] theorem State.setStatus_memWords (s : State) (x : Status) : (s.setStatus x).memWords = s.memWords := rfl
@[simp] theorem State.setStatus_reg (s : State) (x : Status) (q : RegId) : (s.setStatus x).reg q = s.reg q := rfl

/-! ### `setMem` -/

@[simp] theorem State.setMem_regs (s : State) (m : Memory) : (s.setMem m).regs = s.regs := rfl
@[simp] theorem State.setMem_pc (s : State) (m : Memory) : (s.setMem m).pc = s.pc := rfl
@[simp] theorem State.setMem_mem (s : State) (m : Memory) : (s.setMem m).mem = m := rfl
@[simp] theorem State.setMem_free (s : State) (m : Memory) : (s.setMem m).free = s.free := rfl
@[simp] theorem State.setMem_cap (s : State) (m : Memory) : (s.setMem m).cap = s.cap := rfl
@[simp] theorem State.setMem_status (s : State) (m : Memory) : (s.setMem m).status = s.status := rfl
@[simp] theorem State.setMem_input (s : State) (m : Memory) : (s.setMem m).input = s.input := rfl
@[simp] theorem State.setMem_outs (s : State) (m : Memory) : (s.setMem m).outs = s.outs := rfl
@[simp] theorem State.setMem_outReady (s : State) (m : Memory) : (s.setMem m).outReady = s.outReady := rfl
@[simp] theorem State.setMem_memWords (s : State) (m : Memory) : (s.setMem m).memWords = s.memWords := rfl
@[simp] theorem State.setMem_reg (s : State) (m : Memory) (q : RegId) : (s.setMem m).reg q = s.reg q := rfl

/-! ### `setChain` -/

@[simp] theorem State.setChain_regs (s : State) (f : List Word) (n : Nat) : (s.setChain f n).regs = s.regs := rfl
@[simp] theorem State.setChain_pc (s : State) (f : List Word) (n : Nat) : (s.setChain f n).pc = s.pc := rfl
@[simp] theorem State.setChain_mem (s : State) (f : List Word) (n : Nat) : (s.setChain f n).mem = s.mem := rfl
@[simp] theorem State.setChain_free (s : State) (f : List Word) (n : Nat) : (s.setChain f n).free = f := rfl
@[simp] theorem State.setChain_cap (s : State) (f : List Word) (n : Nat) : (s.setChain f n).cap = n := rfl
@[simp] theorem State.setChain_status (s : State) (f : List Word) (n : Nat) : (s.setChain f n).status = s.status := rfl
@[simp] theorem State.setChain_input (s : State) (f : List Word) (n : Nat) : (s.setChain f n).input = s.input := rfl
@[simp] theorem State.setChain_outs (s : State) (f : List Word) (n : Nat) : (s.setChain f n).outs = s.outs := rfl
@[simp] theorem State.setChain_outReady (s : State) (f : List Word) (n : Nat) : (s.setChain f n).outReady = s.outReady := rfl
@[simp] theorem State.setChain_memWords (s : State) (f : List Word) (n : Nat) : (s.setChain f n).memWords = s.memWords := rfl
@[simp] theorem State.setChain_reg (s : State) (f : List Word) (n : Nat) (q : RegId) : (s.setChain f n).reg q = s.reg q := rfl

/-! ### `setInput` -/

@[simp] theorem State.setInput_regs (s : State) (i : Input) : (s.setInput i).regs = s.regs := rfl
@[simp] theorem State.setInput_pc (s : State) (i : Input) : (s.setInput i).pc = s.pc := rfl
@[simp] theorem State.setInput_mem (s : State) (i : Input) : (s.setInput i).mem = s.mem := rfl
@[simp] theorem State.setInput_free (s : State) (i : Input) : (s.setInput i).free = s.free := rfl
@[simp] theorem State.setInput_cap (s : State) (i : Input) : (s.setInput i).cap = s.cap := rfl
@[simp] theorem State.setInput_status (s : State) (i : Input) : (s.setInput i).status = s.status := rfl
@[simp] theorem State.setInput_input (s : State) (i : Input) : (s.setInput i).input = i := rfl
@[simp] theorem State.setInput_outs (s : State) (i : Input) : (s.setInput i).outs = s.outs := rfl
@[simp] theorem State.setInput_outReady (s : State) (i : Input) : (s.setInput i).outReady = s.outReady := rfl
@[simp] theorem State.setInput_memWords (s : State) (i : Input) : (s.setInput i).memWords = s.memWords := rfl
@[simp] theorem State.setInput_reg (s : State) (i : Input) (q : RegId) : (s.setInput i).reg q = s.reg q := rfl

/-! ### `emit` -/

@[simp] theorem State.emit_regs (s : State) (b : Byte) : (s.emit b).regs = s.regs := rfl
@[simp] theorem State.emit_pc (s : State) (b : Byte) : (s.emit b).pc = s.pc := rfl
@[simp] theorem State.emit_mem (s : State) (b : Byte) : (s.emit b).mem = s.mem := rfl
@[simp] theorem State.emit_free (s : State) (b : Byte) : (s.emit b).free = s.free := rfl
@[simp] theorem State.emit_cap (s : State) (b : Byte) : (s.emit b).cap = s.cap := rfl
@[simp] theorem State.emit_status (s : State) (b : Byte) : (s.emit b).status = s.status := rfl
@[simp] theorem State.emit_input (s : State) (b : Byte) : (s.emit b).input = s.input := rfl
@[simp] theorem State.emit_outs (s : State) (b : Byte) : (s.emit b).outs = s.outs ++ [b] := rfl
@[simp] theorem State.emit_outReady (s : State) (b : Byte) : (s.emit b).outReady = s.outReady := rfl
@[simp] theorem State.emit_memWords (s : State) (b : Byte) : (s.emit b).memWords = s.memWords := rfl
@[simp] theorem State.emit_reg (s : State) (b : Byte) (q : RegId) : (s.emit b).reg q = s.reg q := rfl

/-! ### `setOutReady` -/

@[simp] theorem State.setOutReady_regs (s : State) (b : Bool) : (s.setOutReady b).regs = s.regs := rfl
@[simp] theorem State.setOutReady_pc (s : State) (b : Bool) : (s.setOutReady b).pc = s.pc := rfl
@[simp] theorem State.setOutReady_mem (s : State) (b : Bool) : (s.setOutReady b).mem = s.mem := rfl
@[simp] theorem State.setOutReady_free (s : State) (b : Bool) : (s.setOutReady b).free = s.free := rfl
@[simp] theorem State.setOutReady_cap (s : State) (b : Bool) : (s.setOutReady b).cap = s.cap := rfl
@[simp] theorem State.setOutReady_status (s : State) (b : Bool) : (s.setOutReady b).status = s.status := rfl
@[simp] theorem State.setOutReady_input (s : State) (b : Bool) : (s.setOutReady b).input = s.input := rfl
@[simp] theorem State.setOutReady_outs (s : State) (b : Bool) : (s.setOutReady b).outs = s.outs := rfl
@[simp] theorem State.setOutReady_outReady (s : State) (b : Bool) : (s.setOutReady b).outReady = b := rfl
@[simp] theorem State.setOutReady_memWords (s : State) (b : Bool) : (s.setOutReady b).memWords = s.memWords := rfl
@[simp] theorem State.setOutReady_reg (s : State) (b : Bool) (q : RegId) : (s.setOutReady b).reg q = s.reg q := rfl

/-! ### The register file -/

/-- A register just written holds the value. -/
@[simp] theorem State.setReg_reg_self (s : State) (r : RegId) (v : Word) :
    (s.setReg r v).reg r = v := by
  simp [State.reg, State.setReg]

/-- A write to a register leaves every other register alone. -/
theorem State.setReg_reg_other (s : State) {r q : RegId} (v : Word) (h : q ≠ r) :
    (s.setReg r v).reg q = s.reg q := by
  have : r.val ≠ q.val := fun e => h (Fin.ext e.symm)
  simp [State.reg, State.setReg, Vector.getElem_set_ne, this]

/-- `fits` looks only at the parameter MEM_WORDS. -/
@[simp] theorem State.advance_fits (s : State) (n : Nat) : s.advance.fits n = s.fits n := rfl

/-- The resource checks do not look at the pc. -/
@[simp] theorem State.advance_canAllocate (s : State) (n : Word) :
    s.advance.canAllocate n = s.canAllocate n := rfl

end Sys2Proof.Machine
end

