-- ==== Sys2Proof/Laws/Ops.lean ====
section
/-! SUPPORT. For each shared operation, once, everything it can answer; and the same for each instruction
whose meaning has more than one way to end. -/

namespace Sys2Proof.Machine

/-! ### The store -/

/-- A total fits exactly when it does not exceed a finite store. -/
theorem State.fits_iff (s : State) (n : Nat) : s.fits n = true ↔ ¬ ExceedsStore s n := by
  unfold State.fits ExceedsStore
  cases s.memWords <;> simp [limitAllows]

theorem State.not_fits_iff (s : State) (n : Nat) : s.fits n = false ↔ ExceedsStore s n := by
  rw [← Bool.not_eq_true, State.fits_iff, not_not]

/-- A smaller total fits where a larger one does. -/
theorem State.fits_mono (s : State) {m n : Nat} (h : s.fits n = true) (hmn : m ≤ n) :
    s.fits m = true := by
  rw [State.fits_iff] at *
  rintro ⟨k, hk, hlt⟩
  exact h ⟨k, hk, by omega⟩

/-! ### The array manager -/

/-- The resource checks pass exactly when an identifier is left and the words fit (R173). -/
theorem State.canAllocate_iff (s : State) (n : Word) :
    s.canAllocate n = true ↔
      (s.free ≠ [] ∨ s.cap < 2 ^ 32) ∧ s.fits (s.mem.used + n.toNat) = true := by
  simp only [State.canAllocate, Bool.and_eq_true, Bool.not_eq_true', Bool.and_eq_false_iff,
    List.isEmpty_eq_false_iff, decide_eq_false_iff_not, not_le]
  exact Iff.rfl

/-- Everything `Allocate` can answer (R170, R172, R173). -/
theorem allocate_cases (n : Word) (s : State) :
    (∃ id rest, s.free = id :: rest ∧ s.fits (s.mem.used + n.toNat) = true ∧
      allocate n s = .ok (id, (s.setMem (s.mem.bind id (.zeros n))).setChain rest s.cap)) ∨
    (s.free = [] ∧ s.cap < 2 ^ 32 ∧ s.fits (s.mem.used + n.toNat) = true ∧
      allocate n s = .ok (BitVec.ofNat 32 s.cap,
        (s.setMem (s.mem.bind (BitVec.ofNat 32 s.cap) (.zeros n))).setChain
          (newSlots s.cap) (2 * s.cap))) ∨
    (((s.free = [] ∧ 2 ^ 32 ≤ s.cap) ∨ ExceedsStore s (s.mem.used + n.toNat)) ∧
      allocate n s = .error .allocExhausted) := by
  by_cases h : s.canAllocate n = true
  · have h' := (s.canAllocate_iff n).1 h
    cases hf : s.free with
    | cons id rest => exact .inl ⟨id, rest, rfl, h'.2, by simp [allocate, h, hf]⟩
    | nil =>
      refine .inr (.inl ⟨rfl, ?_, h'.2, by simp [allocate, h, hf]⟩)
      simpa [hf] using h'.1
  · refine .inr (.inr ⟨?_, by simp [allocate, h]⟩)
    rw [State.canAllocate_iff, not_and_or, not_or, not_not, not_lt, State.fits_iff, not_not] at h
    exact h

/-- The words of the slots of growth. -/
theorem mem_newSlots {cap : Nat} (hc : 2 * cap ≤ 2 ^ 32) {id : Word} :
    id ∈ newSlots cap ↔ cap < id.toNat ∧ id.toNat < 2 * cap := by
  simp only [newSlots, List.mem_map, List.mem_range'_1]
  constructor
  · rintro ⟨k, hk, rfl⟩
    have : k < 2 ^ 32 := by omega
    rw [BitVec.toNat_ofNat, Nat.mod_eq_of_lt this]
    omega
  · intro h
    exact ⟨id.toNat, by omega, by simp⟩

theorem newSlots_nodup {cap : Nat} (hc : 2 * cap ≤ 2 ^ 32) : (newSlots cap).Nodup := by
  refine List.Nodup.map_on (fun a ha b hb h => ?_) List.nodup_range'
  rw [List.mem_range'_1] at ha hb
  have h := congrArg BitVec.toNat h
  simpa [Nat.mod_eq_of_lt (show a < 4294967296 by omega),
    Nat.mod_eq_of_lt (show b < 4294967296 by omega)] using h

/-- Everything the image replacement of PRG can answer (R201). -/
theorem installImage_cases (id : Word) (s : State) :
    (∃ d, s.mem.find id = some d ∧
      s.fits (s.mem.used + d.length.toNat - s.mem.image.length.toNat) = true ∧
      installImage id s = .ok (s.setMem (s.mem.setImage d))) ∨
    (s.mem.find id = none ∧ installImage id s = .error .programFromInactive) ∨
    (∃ d, s.mem.find id = some d ∧
      ExceedsStore s (s.mem.used + d.length.toNat - s.mem.image.length.toNat) ∧
      installImage id s = .error .allocExhausted) := by
  cases h : s.mem.find id with
  | none => exact .inr (.inl ⟨rfl, by simp [installImage, h]⟩)
  | some d =>
    by_cases hf : s.fits (s.mem.used + d.length.toNat - s.mem.image.length.toNat) = true
    · exact .inl ⟨d, rfl, hf, by simp [installImage, h, hf]⟩
    · refine .inr (.inr ⟨d, rfl, ?_, by simp [installImage, h, hf]⟩)
      rwa [Bool.not_eq_true, State.not_fits_iff] at hf

/-! ### The byte interface -/

/-- Everything `InByte()` can meet (R193). -/
theorem Input.receive_cases (i : Input) :
    (∃ b rest, i.pending = b :: rest ∧ i.receive = (.byte b, { pending := rest, ended := i.ended })) ∨
    (i.pending = [] ∧ i.ended = true ∧ i.receive = (.eof, i)) ∨
    (i.pending = [] ∧ i.ended = false ∧ i.receive = (.none, i)) := by
  cases hp : i.pending with
  | cons b rest => exact .inl ⟨b, rest, rfl, by simp [Input.receive, hp]⟩
  | nil => cases he : i.ended <;> simp [Input.receive, hp, he]

/-! ### The instructions with more than one ending -/

/-- Everything LDA can answer (R140). -/
theorem execLda_cases (a b c : RegId) (s : State) :
    (∃ d, s.mem.find (s.reg b) = some d ∧ (s.reg c).toNat < d.length.toNat ∧
      execLda a b c s = .next (s.advance.setReg a (d.word (s.reg c).toNat))) ∨
    ((∀ d, s.mem.find (s.reg b) = some d → d.length.toNat ≤ (s.reg c).toNat) ∧
      execLda a b c s = raise .inactiveArray s.advance) := by
  rcases s.mem.read_cases (s.reg b) (s.reg c) with ⟨d, hd, hi, h⟩ | ⟨hd, h⟩
  · exact .inl ⟨d, hd, hi, by simp [execLda, h]⟩
  · exact .inr ⟨hd, by simp [execLda, h]⟩

/-- Everything STA can answer (R141). -/
theorem execSta_cases (a b c : RegId) (s : State) :
    (∃ d, s.mem.find (s.reg a) = some d ∧ (s.reg b).toNat < d.length.toNat ∧
      execSta a b c s = .next (s.advance.setMem
        (s.mem.bind (s.reg a) (d.store (s.reg b).toNat (s.reg c))))) ∨
    ((∀ d, s.mem.find (s.reg a) = some d → d.length.toNat ≤ (s.reg b).toNat) ∧
      execSta a b c s = raise .inactiveArray s.advance) := by
  rcases s.mem.write_cases (s.reg a) (s.reg b) (s.reg c) with ⟨d, hd, hi, h⟩ | ⟨hd, h⟩
  · exact .inl ⟨d, hd, hi, by simp [execSta, h]⟩
  · exact .inr ⟨hd, by simp [execSta, h]⟩

/-- Everything NEW can answer (R174). -/
theorem execNew_cases (b c : RegId) (s : State) :
    (∃ id rest, s.free = id :: rest ∧ s.fits (s.mem.used + (s.reg c).toNat) = true ∧
      execNew b c s = .next (((s.advance.setMem (s.mem.bind id (.zeros (s.reg c)))).setChain rest
        s.cap).setReg b id)) ∨
    (s.free = [] ∧ s.cap < 2 ^ 32 ∧ s.fits (s.mem.used + (s.reg c).toNat) = true ∧
      execNew b c s = .next (((s.advance.setMem (s.mem.bind (BitVec.ofNat 32 s.cap)
        (.zeros (s.reg c)))).setChain (newSlots s.cap) (2 * s.cap)).setReg b
          (BitVec.ofNat 32 s.cap))) ∨
    (((s.free = [] ∧ 2 ^ 32 ≤ s.cap) ∨ ExceedsStore s (s.mem.used + (s.reg c).toNat)) ∧
      execNew b c s = raise .allocExhausted s.advance) := by
  rcases allocate_cases (s.reg c) s.advance with ⟨id, rest, hf, hs, h⟩ | ⟨hf, hc, hs, h⟩ | ⟨hx, h⟩
  · exact .inl ⟨id, rest, hf, hs, by simp only [execNew, h]; rfl⟩
  · exact .inr (.inl ⟨hf, hc, hs, by simp only [execNew, h]; rfl⟩)
  · exact .inr (.inr ⟨hx, by simp only [execNew, h]⟩)

/-- Everything DEL can answer (R175). -/
theorem execDel_cases (c : RegId) (s : State) :
    (s.reg c ≠ 0 ∧ s.mem.active (s.reg c) = true ∧
      execDel c s = .next ((s.advance.setMem (s.mem.unbind (s.reg c))).setChain
        (s.reg c :: s.free) s.cap)) ∨
    ((s.reg c = 0 ∨ s.mem.active (s.reg c) = false) ∧
      execDel c s = raise .badDelete s.advance) := by
  by_cases h : s.reg c = 0 ∨ s.mem.active (s.reg c) = false
  · exact .inr ⟨h, by rw [execDel, if_pos h]⟩
  · have h' := not_or.1 h
    exact .inl ⟨h'.1, by simpa using h'.2, by rw [execDel, if_neg h]; rfl⟩

/-- Everything OUT can answer (R190, R194). -/
theorem execOut_cases (c : RegId) (s : State) :
    ((s.reg c).toNat ≤ 255 ∧ s.outReady = true ∧
      execOut c s = .next (s.advance.emit (lowByte (s.reg c)))) ∨
    ((s.reg c).toNat ≤ 255 ∧ s.outReady = false ∧ execOut c s = .next s) ∨
    (255 < (s.reg c).toNat ∧ execOut c s = raise .characterRange s.advance) := by
  by_cases hb : (s.reg c).toNat ≤ 255
  · have h1 : isByte (s.reg c) = true := decide_eq_true hb
    cases hr : s.outReady with
    | true => exact .inl ⟨hb, rfl, by simp [execOut, h1, hr]⟩
    | false => exact .inr (.inl ⟨hb, rfl, by simp [execOut, h1, hr, hold]⟩)
  · have h1 : isByte (s.reg c) = false := decide_eq_false hb
    exact .inr (.inr ⟨by omega, by simp [execOut, h1]⟩)

/-- Everything INP can answer (R191, R194). -/
theorem execInp_cases (c : RegId) (s : State) :
    (∃ b rest, s.input.pending = b :: rest ∧ execInp c s = .next
      ((s.advance.setInput { pending := rest, ended := s.input.ended }).setReg c (byteWord b))) ∨
    (s.input.pending = [] ∧ s.input.ended = true ∧ execInp c s = .next
      ((s.advance.setInput s.input).setReg c Config.eofWord)) ∨
    (s.input.pending = [] ∧ s.input.ended = false ∧ execInp c s = .next s) := by
  rcases s.input.receive_cases with ⟨b, rest, hp, h⟩ | ⟨hp, he, h⟩ | ⟨hp, he, h⟩
  · exact .inl ⟨b, rest, hp, by simp [execInp, h]⟩
  · exact .inr (.inl ⟨hp, he, by simp [execInp, h]⟩)
  · exact .inr (.inr ⟨hp, he, by simp [execInp, h, hold]⟩)

/-- Everything PRG can answer (R201). -/
theorem execPrg_cases (b c : RegId) (s : State) :
    (s.reg b = 0 ∧ execPrg b c s = .next (s.jump (s.reg c))) ∨
    (s.reg b ≠ 0 ∧ ∃ d, s.mem.find (s.reg b) = some d ∧
      s.fits (s.mem.used + d.length.toNat - s.mem.image.length.toNat) = true ∧
      execPrg b c s = .next ((s.setMem (s.mem.setImage d)).jump (s.reg c))) ∨
    (s.reg b ≠ 0 ∧ s.mem.find (s.reg b) = none ∧
      execPrg b c s = raise .programFromInactive s.advance) ∨
    (s.reg b ≠ 0 ∧ ∃ d, s.mem.find (s.reg b) = some d ∧
      ExceedsStore s (s.mem.used + d.length.toNat - s.mem.image.length.toNat) ∧
      execPrg b c s = raise .allocExhausted s.advance) := by
  by_cases hb : s.reg b = 0
  · exact .inl ⟨hb, by simp [execPrg, isNonzero, hb]⟩
  · have hn : isNonzero (s.reg b) = true := by simpa [isNonzero] using hb
    rcases installImage_cases (s.reg b) s with ⟨d, hd, hf, h⟩ | ⟨hd, h⟩ | ⟨d, hd, hx, h⟩
    · exact .inr (.inl ⟨hb, d, hd, hf, by simp [execPrg, hn, h]⟩)
    · exact .inr (.inr (.inl ⟨hb, hd, by simp [execPrg, hn, h]⟩))
    · exact .inr (.inr (.inr ⟨hb, d, hd, hx, by simp [execPrg, hn, h]⟩))

/-! ### The step -/

/-- Everything a step can do (R29, R110, R111). -/
theorem step_cases (s : State) :
    (s.status = .running ∧ s.pc.toNat < s.mem.image.length.toNat ∧
      step s = exec (decode (s.mem.image.word s.pc.toNat)) s) ∨
    (s.status = .running ∧ s.mem.image.length.toNat ≤ s.pc.toNat ∧
      step s = .next (s.setStatus (.faulted .pcOutOfBounds))) ∨
    (s.status ≠ .running ∧ step s = .next s) := by
  cases hs : s.status with
  | running =>
    by_cases h : s.pc.toNat < s.mem.image.length.toNat
    · exact .inl ⟨rfl, h, by simp [step, hs, fetch, h]⟩
    · exact .inr (.inl ⟨rfl, by omega, by simp [step, hs, fetch, h, fetchFault, raise]⟩)
  | halted => exact .inr (.inr ⟨by simp, by simp [step, hs, stopped]⟩)
  | faulted k => exact .inr (.inr ⟨by simp, by simp [step, hs, stopped]⟩)

end Sys2Proof.Machine
end

