-- ==== Sys2Proof/Laws/Exec.lean ====
section
/-! SUPPORT. Once and for all, everything an instruction and a step can do. -/

namespace Sys2Proof.Machine

/-- The value a register-only instruction writes, and to which register; `none` for the instructions of
another shape, for a MOV that does not move and for a DIV by 0. -/
inductive WritesValue : Instr → State → RegId → Word → Prop where
  | mov {a b c s} (h : s.reg c ≠ 0) : WritesValue (.mov a b c) s a (s.reg b)
  | ldi {r imm s} : WritesValue (.ldi r imm) s r (immWord imm)
  | lda {a b c s d} (hd : s.mem.find (s.reg b) = some d)
      (hi : (s.reg c).toNat < d.length.toNat) :
      WritesValue (.lda a b c) s a (d.word (s.reg c).toNat)
  | add {a b c s} :
      WritesValue (.add a b c) s a (BitVec.ofNat 32 ((s.reg b).toNat + (s.reg c).toNat))
  | mul {a b c s} :
      WritesValue (.mul a b c) s a (BitVec.ofNat 32 ((s.reg b).toNat * (s.reg c).toNat))
  | div {a b c s} (h : s.reg c ≠ 0) :
      WritesValue (.div a b c) s a (BitVec.ofNat 32 ((s.reg b).toNat / (s.reg c).toNat))
  | nan {a b c s} : WritesValue (.nan a b c) s a (~~~(s.reg b &&& s.reg c))

/-- `Ran i s t`: executing `i` in `s` can lead to `t`. One constructor for each way an instruction can
end, with the conditions under which it ends so. -/
inductive Ran : Instr → State → State → Prop where
  | write {i s a v} (h : WritesValue i s a v) : Ran i s (s.advance.setReg a v)
  | movSkip {a b c s} (h : s.reg c = 0) : Ran (.mov a b c) s s.advance
  | store {a b c s d} (hd : s.mem.find (s.reg a) = some d)
      (hi : (s.reg b).toNat < d.length.toNat) :
      Ran (.sta a b c) s (s.advance.setMem
        (s.mem.bind (s.reg a) (d.store (s.reg b).toNat (s.reg c))))
  | newReuse {b c s id rest} (hf : s.free = id :: rest)
      (hs : s.fits (s.mem.used + (s.reg c).toNat) = true) :
      Ran (.new b c) s (((s.advance.setMem (s.mem.bind id (.zeros (s.reg c)))).setChain rest
        s.cap).setReg b id)
  | newGrow {b c s} (hf : s.free = []) (hc : s.cap < 2 ^ 32)
      (hs : s.fits (s.mem.used + (s.reg c).toNat) = true) :
      Ran (.new b c) s (((s.advance.setMem (s.mem.bind (BitVec.ofNat 32 s.cap)
        (.zeros (s.reg c)))).setChain (newSlots s.cap) (2 * s.cap)).setReg b
          (BitVec.ofNat 32 s.cap))
  | del {c s} (h0 : s.reg c ≠ 0) (ha : s.mem.active (s.reg c) = true) :
      Ran (.del c) s ((s.advance.setMem (s.mem.unbind (s.reg c))).setChain
        (s.reg c :: s.free) s.cap)
  | out {c s} (hb : (s.reg c).toNat ≤ 255) (hr : s.outReady = true) :
      Ran (.out c) s (s.advance.emit (lowByte (s.reg c)))
  | inpByte {c s b rest} (hp : s.input.pending = b :: rest) :
      Ran (.inp c) s ((s.advance.setInput { pending := rest, ended := s.input.ended }).setReg c (byteWord b))
  | inpEnd {c s} (hp : s.input.pending = []) (he : s.input.ended = true) :
      Ran (.inp c) s ((s.advance.setInput s.input).setReg c Config.eofWord)
  | hlt {s} : Ran .hlt s (s.advance.setStatus .halted)
  | jump {b c s} (h0 : s.reg b = 0) : Ran (.prg b c) s (s.jump (s.reg c))
  | install {b c s d} (h0 : s.reg b ≠ 0) (hd : s.mem.find (s.reg b) = some d)
      (hs : s.fits (s.mem.used + d.length.toNat - s.mem.image.length.toNat) = true) :
      Ran (.prg b c) s ((s.setMem (s.mem.setImage d)).jump (s.reg c))
  | fault {i s k} (h : FaultCond i k s) : Ran i s (s.advance.setStatus (.faulted k))
  | hold {i s} (h : Holds i s) : Ran i s s

theorem not_inBounds {m : Memory} {id i : Word}
    (h : ∀ d, m.find id = some d → d.length.toNat ≤ i.toNat) : ¬ InBounds m id i := by
  rintro ⟨n, hn, hi⟩
  obtain ⟨d, hd, rfl⟩ := Option.map_eq_some_iff.1 hn
  have := h d hd
  omega

/-- What the answers of the meanings are, as a next state of one of the shapes of `Ran`. -/
theorem exec_ran {i : Instr} {s t : State} (h : exec i s = .next t) : Ran i s t := by
  cases i with
  | mov a b c =>
    by_cases hc : s.reg c = 0
    · have : t = s.advance := by
        simpa [exec, execMov, isNonzero, hc] using h.symm
      exact this ▸ .movSkip hc
    · have hn : isNonzero (s.reg c) = true := by simpa [isNonzero] using hc
      have : t = s.advance.setReg a (s.reg b) := by simpa [exec, execMov, hn] using h.symm
      exact this ▸ .write (.mov hc)
  | ldi r imm =>
    cases h
    exact .write .ldi
  | lda a b c =>
    rcases execLda_cases a b c s with ⟨d, hd, hi, e⟩ | ⟨hx, e⟩ <;> cases e.symm.trans h
    · exact .write (.lda hd hi)
    · exact .fault (not_inBounds hx)
  | sta a b c =>
    rcases execSta_cases a b c s with ⟨d, hd, hi, e⟩ | ⟨hx, e⟩ <;> cases e.symm.trans h
    · exact .store hd hi
    · exact .fault (not_inBounds hx)
  | add a b c =>
    cases h
    exact .write .add
  | mul a b c =>
    cases h
    exact .write .mul
  | div a b c =>
    by_cases hc : s.reg c = 0
    · rw [exec, execDiv, if_pos hc] at h
      cases h
      exact .fault hc
    · rw [exec, execDiv, if_neg hc] at h
      cases h
      exact .write (.div hc)
  | nan a b c =>
    cases h
    exact .write .nan
  | hlt =>
    cases h
    exact .hlt
  | new b c =>
    rcases execNew_cases b c s with ⟨id, rest, hf, hs, e⟩ | ⟨hf, hc, hs, e⟩ | ⟨hx, e⟩ <;>
      cases e.symm.trans h
    · exact .newReuse hf hs
    · exact .newGrow hf hc hs
    · exact .fault hx
  | del c =>
    rcases execDel_cases c s with ⟨h0, ha, e⟩ | ⟨hx, e⟩ <;> cases e.symm.trans h
    · exact .del h0 ha
    · exact .fault hx
  | out c =>
    rcases execOut_cases c s with ⟨hb, hr, e⟩ | ⟨hb, hr, e⟩ | ⟨hb, e⟩ <;> cases e.symm.trans h
    · exact .out hb hr
    · exact .hold ⟨hb, hr⟩
    · exact .fault hb
  | inp c =>
    rcases execInp_cases c s with ⟨b, rest, hp, e⟩ | ⟨hp, he, e⟩ | ⟨hp, he, e⟩ <;>
      cases e.symm.trans h
    · exact .inpByte hp
    · exact .inpEnd hp he
    · exact .hold ⟨hp, he⟩
  | prg b c =>
    rcases execPrg_cases b c s with ⟨h0, e⟩ | ⟨h0, d, hd, hs, e⟩ | ⟨h0, hd, e⟩ |
      ⟨h0, d, hd, hx, e⟩ <;> cases e.symm.trans h
    · exact .jump h0
    · exact .install h0 hd hs
    · exact .fault ⟨h0, by simp [Memory.active, hd]⟩
    · exact .fault ⟨h0, d.length, by simp [Memory.len, hd], hx⟩
  | invalid14 =>
    cases h
    exact .fault trivial
  | invalid15 =>
    cases h
    exact .fault trivial

/-- Everything a step can do: execute one instruction, fault at the fetch, or stay in an ended run. -/
theorem step_ran {s t : State} (h : step s = .next t) :
    (s.Executes ∧ exec s.nextInstr s = .next t ∧ Ran s.nextInstr s t) ∨
    (s.status = .running ∧ s.mem.image.length.toNat ≤ s.pc.toNat ∧
      t = s.setStatus (.faulted .pcOutOfBounds)) ∨
    (s.status ≠ .running ∧ t = s) := by
  rcases step_cases s with ⟨hr, hi, e⟩ | ⟨hr, hi, e⟩ | ⟨hr, e⟩
  · exact .inl ⟨⟨hr, hi⟩, e.symm.trans h, exec_ran (e.symm.trans h)⟩
  · cases e.symm.trans h
    exact .inr (.inl ⟨hr, hi, rfl⟩)
  · cases e.symm.trans h
    exact .inr (.inr ⟨hr, rfl⟩)

end Sys2Proof.Machine
end

