-- ==== Sys2Proof/Laws/PerInstr.lean ====
section
/-! SUPPORT. Statements made of every instruction as syntax, one lemma per constructor. -/

namespace Sys2Proof.Laws.EncodedWord

/-- The word of an instruction carries the instruction's opcode in its top four bits, and every bit its
opcode ignores is 0 (R83, R95); the instruction is legal exactly when the word is below 0xE0000000
(R90). -/
def Statement (i : Instr) : Prop :=
  opcodeOf (encode i) = i.opcode ∧ (encode i).canonical = true ∧
    (i.wellFormed = true ↔ (encode i).toNat < 0xE0000000)

/-- The statement for a format R word whose operand fields stay inside the opcode's operand bits. -/
theorem of_encodeR {i : Instr} {op : Nat} {a b c : RegId} (h : op < 16)
    (he : encode i = encodeR op a b c) (ho : i.opcode = op)
    (hc : a.val * 64 + b.val * 8 + c.val < 2 ^ operandBits op) : Statement i := by
  have hn := encodeR_toNat h a b c
  have hw : i.wellFormed = true ↔ op < 14 := by
    rw [← ho]
    exact decide_eq_true_iff
  refine ⟨?_, ?_, ?_⟩
  · rw [he, ho, opcodeOf_eq, hn]
    omega
  · have hd : (op * 2 ^ 28 + a.val * 64 + b.val * 8 + c.val) / 2 ^ 28 = op := by omega
    rw [he, Word.canonical_iff, hn, hd]
    have : (op * 2 ^ 28 + a.val * 64 + b.val * 8 + c.val) % 2 ^ 28 =
        a.val * 64 + b.val * 8 + c.val := by omega
    omega
  · rw [hw, he, hn]
    omega

/-- Three register fields take nine bits. -/
theorem threeFields (a b c : RegId) : a.val * 64 + b.val * 8 + c.val < 2 ^ 9 := by omega

/-- Two take six. -/
theorem twoFields (b c : RegId) : (0 : RegId).val * 64 + b.val * 8 + c.val < 2 ^ 6 := by
  have : (0 : RegId).val = 0 := rfl
  omega

/-- One takes three. -/
theorem oneField (c : RegId) : (0 : RegId).val * 64 + (0 : RegId).val * 8 + c.val < 2 ^ 3 := by
  have : (0 : RegId).val = 0 := rfl
  omega

theorem mov (a b c : RegId) : Statement (.mov a b c) :=
  of_encodeR (by decide) rfl rfl (threeFields a b c)

theorem lda (a b c : RegId) : Statement (.lda a b c) :=
  of_encodeR (by decide) rfl rfl (threeFields a b c)

theorem sta (a b c : RegId) : Statement (.sta a b c) :=
  of_encodeR (by decide) rfl rfl (threeFields a b c)

theorem add (a b c : RegId) : Statement (.add a b c) :=
  of_encodeR (by decide) rfl rfl (threeFields a b c)

theorem mul (a b c : RegId) : Statement (.mul a b c) :=
  of_encodeR (by decide) rfl rfl (threeFields a b c)

theorem div (a b c : RegId) : Statement (.div a b c) :=
  of_encodeR (by decide) rfl rfl (threeFields a b c)

theorem nan (a b c : RegId) : Statement (.nan a b c) :=
  of_encodeR (by decide) rfl rfl (threeFields a b c)

theorem hlt : Statement .hlt := of_encodeR (by decide) rfl rfl (by decide)

theorem new (b c : RegId) : Statement (.new b c) :=
  of_encodeR (by decide) rfl rfl (twoFields b c)

theorem del (c : RegId) : Statement (.del c) :=
  of_encodeR (by decide) rfl rfl (oneField c)

theorem out (c : RegId) : Statement (.out c) :=
  of_encodeR (by decide) rfl rfl (oneField c)

theorem inp (c : RegId) : Statement (.inp c) :=
  of_encodeR (by decide) rfl rfl (oneField c)

theorem prg (b c : RegId) : Statement (.prg b c) :=
  of_encodeR (by decide) rfl rfl (twoFields b c)

theorem ldi (r : RegId) (imm : Imm25) : Statement (.ldi r imm) := by
  have hn := encodeI_toNat r imm
  have hi := imm.isLt
  have ho : opcodeOf (encodeI r imm) = 13 := by
    rw [opcodeOf_eq, hn]
    omega
  refine ⟨ho, ?_, ?_⟩
  · show (encodeI r imm).canonical = true
    rw [Word.canonical_iff, ← opcodeOf_eq, ho]
    exact Nat.mod_lt _ (by decide)
  · show true = true ↔ (encodeI r imm).toNat < 0xE0000000
    rw [hn]
    simp only [true_iff]
    omega

theorem invalid14 : Statement .invalid14 := of_encodeR (by decide) rfl rfl (by decide)

theorem invalid15 : Statement .invalid15 := of_encodeR (by decide) rfl rfl (by decide)

end Sys2Proof.Laws.EncodedWord
end

