-- ==== Sys2Proof/Laws/Run.lean ====
section
/-! SUPPORT. What the host's turn and a step do to a run, once. -/

namespace Sys2Proof.Machine

@[simp] theorem Run.after_zero (inp : InputStream) (r : Run) : r.after inp 0 = r := rfl

theorem Run.after_succ (inp : InputStream) (k : Nat) (r : Run) :
    r.after inp (k + 1) = (r.next inp).after inp k := rfl

/-- Steps in a row add up. -/
theorem Run.after_add (inp : InputStream) (j k : Nat) (r : Run) :
    r.after inp (j + k) = (r.after inp j).after inp k := by
  induction j generalizing r with
  | zero => rw [Nat.zero_add, after_zero]
  | succ j ih => rw [Nat.add_right_comm, after_succ, ih, after_succ]

/-- The last of `k + 1` steps. -/
theorem Run.after_step (inp : InputStream) (k : Nat) (r : Run) :
    r.after inp (k + 1) = (r.after inp k).next inp := by
  rw [after_add, after_succ, after_zero]

@[simp] theorem runSteps_zero (s : State) : runSteps 0 s = s := rfl

theorem runSteps_succ (k : Nat) (s : State) : runSteps (k + 1) s = runSteps k (stepState s) := rfl

theorem runSteps_add (j k : Nat) (s : State) : runSteps (j + k) s = runSteps k (runSteps j s) := by
  induction j generalizing s with
  | zero => rw [Nat.zero_add, runSteps_zero]
  | succ j ih => rw [Nat.add_right_comm, runSteps_succ, ih, runSteps_succ]

/-- The last of `k + 1` steps. -/
theorem runSteps_step (k : Nat) (s : State) : runSteps (k + 1) s = stepState (runSteps k s) := by
  rw [runSteps_add, runSteps_succ, runSteps_zero]

/-- The state a step answers. -/
theorem stepState_eq {s t : State} (h : step s = .next t) : stepState s = t := by
  rw [stepState, h]

theorem isInp_iff (i : Instr) : isInp i = true ↔ ∃ c, i = .inp c := by
  cases i <;> simp [isInp]

/-- The core waits for a transfer exactly when it executes an INP and holds at it (R194). -/
theorem State.awaitsInput_iff (s : State) :
    s.awaitsInput = true ↔ s.Executes ∧ ∃ c, s.nextInstr = .inp c ∧ Holds (.inp c) s := by
  by_cases h : s.pc.toNat < s.mem.image.length.toNat
  · simp [awaitsInput, fetch, h, isInp_iff, Executes, nextInstr, Holds, and_assoc]
  · simp [awaitsInput, fetch, h, Executes]

/-- Everything the host's turn can do: nothing, because the core does not wait or the host stalls; or one
transfer to the waiting core. -/
theorem Run.supply_cases (inp : InputStream) (r : Run) :
    (r.core.awaitsInput = false ∧ r.supply inp = r) ∨
    (r.core.awaitsInput = true ∧ inp.transfer r.given = none ∧ r.supply inp = r) ∨
    (∃ b, r.core.awaitsInput = true ∧ inp.transfer r.given = some (.byte b) ∧
      r.supply inp = { core := r.core.setInput { pending := [b], ended := false },
                       given := r.given + 1 }) ∨
    (r.core.awaitsInput = true ∧ inp.transfer r.given = some .endOfInput ∧
      r.supply inp = { core := r.core.setInput { pending := [], ended := true },
                       given := r.given }) := by
  cases hw : r.core.awaitsInput with
  | false => exact .inl ⟨rfl, by simp [supply, hw]⟩
  | true =>
    obtain ⟨-, c, -, hp, he⟩ := r.core.awaitsInput_iff.1 hw
    rcases ht : inp.transfer r.given with _ | b | _
    · exact .inr (.inl ⟨rfl, rfl, by simp [supply, hw, ht]⟩)
    · exact .inr (.inr (.inl ⟨b, rfl, rfl, by
        simp [supply, hw, ht, accept, State.deliver, hp, he]⟩))
    · exact .inr (.inr (.inr ⟨rfl, rfl, by simp [supply, hw, ht, accept, State.endInput, hp]⟩))

/-- The host's turn changes nothing of the core but its input. -/
theorem Run.supply_core (inp : InputStream) (r : Run) :
    ∃ left, (r.supply inp).core = r.core.setInput left := by
  rcases r.supply_cases inp with ⟨_, e⟩ | ⟨_, _, e⟩ | ⟨b, _, _, e⟩ | ⟨_, _, e⟩ <;> rw [e]
  · exact ⟨r.core.input, rfl⟩
  · exact ⟨r.core.input, rfl⟩
  · exact ⟨_, rfl⟩
  · exact ⟨_, rfl⟩

/-- The host's turn does nothing to a core that does not wait. -/
theorem Run.supply_of_not_awaits {inp : InputStream} {r : Run} (h : r.core.awaitsInput = false) :
    r.supply inp = r := by
  rw [supply, h]
  rfl

/-- A step of a run is the host's turn and then a step of the core. -/
theorem Run.next_eq {inp : InputStream} {r : Run} {t : State}
    (h : step (r.supply inp).core = .next t) :
    r.next inp = { core := t, given := (r.supply inp).given } := by
  rw [next, stepState_eq h]

end Sys2Proof.Machine
end

