-- ==== Sys2Proof/Tests/Slice0.lean ====
section
/-! SUPPORT. Tests of the model against spec/95_test_vectors.md and the examples of the rules, and for
each statement with hypotheses a concrete state that meets them. -/

namespace Sys2Proof.Tests

open Sys2Proof Sys2Proof.Machine

/-- What a test reads off an answer. -/
def answer {α : Type} (r : Result) (f : State → α) : Option α :=
  match r with
  | .next t => some (f t)
  | .fault _ => none
  | .refused _ => none

/-- The reset state with one word as its program. -/
def one (w : Nat) : State := State.reset.withFetchWord 32 w

/-- The reset state with one word as its program and an active array 1 of four words, the word at index
2 being 0x61, as after `NEW` and `STA` of program P2. -/
def withArray (w : Nat) : State :=
  { one w with
    mem := { image := (one w).mem.image, arrays := [(1, { length := 4, storage := [(2, 0x61)] })] }
    cap := 2 }

/-! ### Well-formedness and decoding -/

/-- R90: opcode 14 is not legal. -/
theorem test_illformed_opcode14 : Instr.invalid14.wellFormed = false := by decide

/-- R90: opcode 15 is not legal. -/
theorem test_illformed_opcode15 : Instr.invalid15.wellFormed = false := by decide

/-- R90: opcode 13 is. -/
theorem test_wellformed_ldi : (Instr.ldi 7 0x1FFFFFF).wellFormed = true := by decide

/-- R95: `0x3FFFFE81` has ignored bits set, `0x30000081` has none. -/
theorem test_noncanonical_format_r :
    Word.canonical 0x3FFFFE81 = false ∧ Word.canonical 0x30000081 = true := by decide

/-- R85, R95: an unused register field that is not 0. -/
theorem test_noncanonical_unused_fields :
    Word.canonical 0x700001FF = false ∧ Word.canonical 0x90000009 = false ∧
    Word.canonical 0xC0000040 = false := by decide

/-- Words of 95_test_vectors.md 2.1, with every ignored bit set. -/
theorem test_decode_ignored_bits :
    decode 0x3FFFFE81 = .add 2 0 1 ∧ decode 0x700001FF = .hlt ∧ decode 0xAFFFFFF8 = .out 0 ∧
    decode 0xBFFFFFFF = .inp 7 ∧ decode 0x8FFFFFC8 = .new 1 0 ∧ decode 0x9FFFFFF9 = .del 1 ∧
    decode 0xCFFFFFC0 = .prg 0 0 := by decide

/-- Words of the examples of R130, R131, R140, R141, R150 to R153. -/
theorem test_decode_examples :
    decode 0x00000158 = .mov 5 3 0 ∧ decode 0xD6000030 = .ldi 3 0x30 ∧
    decode 0x1000010A = .lda 4 1 2 ∧ decode 0x20000053 = .sta 1 2 3 ∧
    decode 0x30000081 = .add 2 0 1 ∧ decode 0x40000097 = .mul 2 2 7 ∧
    decode 0x50000081 = .div 2 0 1 ∧ decode 0x600000B6 = .nan 2 6 6 := by decide

/-- Words of the examples of R174, R175, R190, R191, R200, R201, R202. -/
theorem test_decode_examples_rest :
    decode 0x80000008 = .new 1 0 ∧ decode 0x90000001 = .del 1 ∧ decode 0xA0000000 = .out 0 ∧
    decode 0xB0000000 = .inp 0 ∧ decode 0x70000000 = .hlt ∧ decode 0xC0000035 = .prg 6 5 ∧
    decode 0xE0000000 = .invalid14 ∧ decode 0xFFFFFFFF = .invalid15 := by decide

/-- R95 and the canonical encodings of 95_test_vectors.md 2.1. -/
theorem test_encode_examples :
    encode (.add 2 0 1) = 0x30000081 ∧ encode (.prg 7 7) = 0xC000003F ∧
    encode (.new 7 7) = 0x8000003F ∧ encode (.ldi 3 0x30) = 0xD6000030 ∧
    encode (.ldi 7 0x1FFFFFF) = 0xDFFFFFFF := by decide

/-- The table's bit numbering: the word of `LDI R0, 0x41`. -/
theorem test_decode_table_word :
    decodeTableWord 32 0xD0000041 = some (.ldi 0 0x41) ∧ decodeTableWord 33 0 = none := by decide

/-! ### The instructions, one step each -/

/-- 95 2.2: condition 9 is nonzero. -/
theorem test_mov_moves :
    answer (step (((one 0x00000081).setReg 0 5).setReg 1 9)) (fun t => (t.reg 2, t.pc)) =
      some (5, 1) := by decide

/-- 95 2.2: condition zero leaves the destination, it is not cleared. -/
theorem test_mov_keeps :
    answer (step (((one 0x000000C6).setReg 3 7).setReg 0 5)) (fun t => (t.reg 3, t.pc)) =
      some (7, 1) := by decide

/-- 95 2.2: the whole register is overwritten and the immediate is not sign-extended. -/
theorem test_ldi_zero_extends :
    answer (step ((one 0xD1FFFFFF).setReg 0 0xFFFFFFFF)) (fun t => t.reg 0) =
      some 0x01FFFFFF := by decide

/-- The example of R140. -/
theorem test_lda_loads :
    answer (step (((withArray 0x1000010A).setReg 1 1).setReg 2 2)) (fun t => (t.reg 4, t.pc)) =
      some (0x61, 1) := by decide

/-- 95 2.4: an index equal to the length faults and the register is not written. -/
theorem test_lda_at_length :
    answer (step (((withArray 0x1000010A).setReg 1 1).setReg 2 4))
      (fun t => (t.reg 4, t.pc, t.status)) = some (0, 1, .faulted .inactiveArray) := by decide

/-- The example of R141, and a store of 0 leaves nothing listed. -/
theorem test_sta_stores :
    answer (step ((((withArray 0x20000053).setReg 1 1).setReg 2 3).setReg 3 0x62))
      (fun t => t.mem.arrays) = some [(1, { length := 4, storage := [(2, 0x61), (3, 0x62)] })] ∧
    answer (step (((withArray 0x20000053).setReg 1 1).setReg 2 2)) (fun t => t.mem.arrays) =
      some [(1, { length := 4, storage := [] })] := by decide

/-- R62: identifier 0 is the running program. -/
theorem test_sta_patches_program :
    answer (step ((one 0x20000190).setReg 0 0x70000000)) (fun t => t.mem.image) =
      some { length := 1, storage := [(0, 0x70000000)] } := by decide

/-- 95 2.3: sums wrap. -/
theorem test_add_wraps :
    answer (step (((one 0x30000081).setReg 0 0xDEADBEEF).setReg 1 0x21524112))
      (fun t => t.reg 2) = some 1 := by decide

/-- 95 2.3, operand coincidence: `ADD R1, R1, R1` doubles. -/
theorem test_add_same_register :
    answer (step ((one 0x30000049).setReg 1 3)) (fun t => t.reg 1) = some 6 := by decide

/-- 95 2.3. -/
theorem test_mul_low_word :
    answer (step (((one 0x40000081).setReg 0 0x12345678).setReg 1 0x9ABCDEF0))
      (fun t => t.reg 2) = some 0x242D2080 := by decide

/-- 95 2.3: where a signed divide would differ. -/
theorem test_div_unsigned :
    answer (step (((one 0x50000081).setReg 0 0xFFFFFFF9).setReg 1 2)) (fun t => t.reg 2) =
      some 0x7FFFFFFC := by decide

/-- 95 2.9: division by zero writes nothing. -/
theorem test_div_by_zero :
    answer (step (((one 0x50000081).setReg 2 0x55).setReg 0 1))
      (fun t => (t.reg 2, t.pc, t.status)) = some (0x55, 1, .faulted .divisionByZero) := by decide

/-- 95 2.3. -/
theorem test_nan_bits :
    answer (step (((one 0x60000081).setReg 0 0xF0F0F0F0).setReg 1 0xFF00FF00))
      (fun t => t.reg 2) = some 0x0FFF0FFF := by decide

/-- R200, scenario 1. -/
theorem test_hlt :
    answer (step (one 0x70000000)) (fun t => (t.status.code, t.pc, t.outs)) =
      some (some 0, 1, []) := by decide

/-- 95 2.5, B = C: the length is read before the register is written. -/
theorem test_new_first :
    answer (step ((one 0x80000009).setReg 1 3)) (fun t => (t.reg 1, t.mem.arrays, t.cap, t.free)) =
      some (1, [(1, { length := 3, storage := [] })], 2, []) := by decide

/-- 95 2.5, trace T1: the second NEW answers 2 and puts 3 on the chain. -/
theorem test_new_grows :
    answer (step (withArray 0x80000008)) (fun t => (t.reg 1, t.free, t.cap)) =
      some (2, [3], 4) := by decide

/-- R175, P2: the identifier becomes the head of the chain. -/
theorem test_del :
    answer (step ((withArray 0x90000001).setReg 1 1)) (fun t => (t.mem.arrays, t.free, t.reg 1)) =
      some ([], [1], 1) := by decide

/-- 95 2.5, trace T4: identifier 0 and one out of range. -/
theorem test_del_bad :
    answer (step (withArray 0x90000001)) (fun t => t.status) = some (.faulted .badDelete) ∧
    answer (step ((withArray 0x90000001).setReg 1 7)) (fun t => t.status) =
      some (.faulted .badDelete) := by decide

/-- 95 2.6: 255 is emitted. -/
theorem test_out_byte :
    answer (step ((one 0xA0000000).setReg 0 255)) (fun t => (t.outs, t.status)) =
      some ([0xFF], .running) := by decide

/-- 95 2.6: 256 faults and emits nothing. -/
theorem test_out_range :
    answer (step ((one 0xA0000000).setReg 0 256)) (fun t => (t.outs, t.status.code)) =
      some ([], some 6) := by decide

/-- 95 2.6: the byte 0xFF is zero-extended; at the end of input the sentinel. -/
theorem test_inp_byte_and_end :
    answer (step ((one 0xB0000001).deliver 0xFF)) (fun t => (t.reg 1, t.input.pending, t.pc)) =
      some (0xFF, [], 1) ∧
    answer (step (one 0xB0000001).endInput) (fun t => (t.reg 1, t.pc)) =
      some (0xFFFFFFFF, 1) := by decide

/-- 95 2.6: no byte yet and not ended: the step is not taken. -/
theorem test_inp_holds : step (one 0xB0000000) = .next (one 0xB0000000) := rfl

/-- R201: with R[B] = 0 a jump; the example of 46_control.md. -/
theorem test_prg_jumps :
    answer (step ((one 0xC0000035).setReg 5 4)) (fun t => (t.pc, t.mem.image.length)) =
      some (4, 1) := by decide

/-- R201: the image becomes a copy and the array stays. -/
theorem test_prg_installs :
    answer (step ((withArray 0xC000000D).setReg 1 1))
      (fun t => (t.pc, t.mem.image, t.mem.arrays)) =
    some (0, { length := 4, storage := [(2, 0x61)] },
      [(1, { length := 4, storage := [(2, 0x61)] })]) := by decide

/-- 95 2.7: the undefined opcodes; the pc is one past the word. -/
theorem test_undefined_opcodes :
    answer (step (one 0xE0000000)) (fun t => (t.status.code, t.pc)) = some (some 1, 1) ∧
    answer (step (one 0xFFFFFFFF)) (fun t => (t.status.code, t.pc)) = some (some 1, 1) := by
  decide

/-! ### Fetch, load and reset -/

/-- 95 2.7: the empty program faults at the first fetch with the pc as it was. -/
theorem test_empty_program :
    answer (step State.reset) (fun t => (t.status.code, t.pc, t.outs)) = some (some 7, 0, []) := by
  decide

/-- R29: an ended run does not go on. -/
theorem test_halted_stays :
    step ((one 0xD0000041).setStatus .halted) = .next ((one 0xD0000041).setStatus .halted) := rfl

/-- 95 2.8: big-endian, a trailing byte is dropped, and `00 00 00 70` is not HLT. -/
theorem test_load_bytes :
    wordsOfBytes [0xD0, 0, 0, 0x41, 0x70, 0, 0, 0, 0xAB] = [0xD0000041, 0x70000000] ∧
    (wordsOfBytes [0, 0, 0, 0x70]).map decode = [.mov 1 6 0] := by decide

/-- R253: a finite store refuses a program that does not fit. -/
theorem test_load_refused : loadImage (.words 0) [0x70, 0, 0, 0] = none := by decide

/-- R39, R201: 95 2.7 with MEM_WORDS = 6: an image of 3 words and an array of 3. -/
theorem test_used :
    Memory.used { image := { length := 3, storage := [] },
                  arrays := [(1, { length := 3, storage := [] })] } = 6 := by decide

/-- Placing a word changes no register and keeps the pc. -/
theorem test_place_word :
    (one 0x70000000).pc = 0 ∧ fetch (one 0x70000000) = some 0x70000000 := by decide

/-! ### Witnesses: states that meet the hypotheses of the statements -/

/-- A state of the invariant, as a run reaches it: a one-word program, arrays 1 and 2, identifier 3 on
the chain (trace T1 after the second NEW). The word is not 0. -/
def busy (w : Word) : State :=
  { State.reset with
    mem := { image := { length := 1, storage := [(0, w)] }
             arrays := [(1, { length := 4, storage := [(2, 0x61)] }),
                        (2, { length := 0, storage := [] })] }
    free := [3]
    cap := 4 }

theorem busy_find (w : Word) {id : Word} {d : Descriptor} (h : (busy w).mem.find id = some d) :
    id = 0 ∨ id = 1 ∨ id = 2 := by
  by_cases h0 : id = 0
  · exact .inl h0
  · rw [Memory.find, if_neg h0] at h
    have hm := KeyMap.mem_of_get h
    have : id.toNat = 1 ∨ id.toNat = 2 := by
      simp only [busy, List.mem_cons, List.not_mem_nil, or_false, Prod.mk.injEq] at hm
      rcases hm with hm | hm
      · exact .inl hm.1
      · exact .inr hm.1
    rcases this with e | e
    · exact .inr (.inl (BitVec.eq_of_toNat_eq e))
    · exact .inr (.inr (BitVec.eq_of_toNat_eq e))

/-- A state that meets the invariant. -/
theorem witness_inv {w : Word} (hw : w ≠ 0) : (busy w).Inv where
  memory := by
    refine ⟨⟨by simp [busy, KeyMap.Rising], ?_⟩, by simp [busy, KeyMap.Rising], ?_⟩
    · intro p hp
      obtain rfl : p = (0, w) := by simpa [busy] using hp
      exact ⟨by show (0 : Nat) < 1; decide, hw⟩
    intro p hp
    obtain rfl | rfl : p = (1, { length := 4, storage := [(2, 0x61)] }) ∨
        p = (2, { length := 0, storage := [] }) := by simpa [busy] using hp
    all_goals exact ⟨by decide, by simp [Config.maxCapacity], by decide⟩
  program := rfl
  chainNodup := by show ([3] : List Word).Nodup; decide
  chainRange := by
    intro id h
    obtain rfl : id = 3 := by simpa [busy] using h
    exact ⟨by decide, by show (3 : Word).toNat < 4; decide⟩
  chainInactive := by
    intro id h
    obtain rfl : id = 3 := by simpa [busy] using h
    rfl
  covered := by
    intro id h0 h
    change id.toNat < 4 at h
    have h0' : id.toNat ≠ 0 := fun e => h0 (BitVec.eq_of_toNat_eq e)
    have : id.toNat = 1 ∨ id.toNat = 2 ∨ id.toNat = 3 := by omega
    rcases this with e | e | e
    · obtain rfl : id = 1 := BitVec.eq_of_toNat_eq e
      exact .inl rfl
    · obtain rfl : id = 2 := BitVec.eq_of_toNat_eq e
      exact .inl rfl
    · obtain rfl : id = 3 := BitVec.eq_of_toNat_eq e
      exact .inr (by show 3 ∈ ([3] : List Word); decide)
  activeRange := by
    intro id h
    obtain ⟨d, hd⟩ := Option.isSome_iff_exists.1 h
    show id.toNat < 4
    rcases busy_find w hd with rfl | rfl | rfl <;> decide
  capacity := ⟨2, by decide, rfl⟩
  storage := rfl

/-- A state that meets the relation of R37 with REL = [] and NXT = 3. -/
theorem witness_reduced (w : Word) : Reduced (busy w) [] 3 where
  range := by show 1 ≤ 3 ∧ 3 ≤ 4; decide
  chain := by
    show ([3] : List Word) = [] ++ (List.range' 3 (4 - 3)).map (BitVec.ofNat 32)
    decide
  active := by
    intro id
    constructor
    · intro h
      obtain ⟨d, hd⟩ := Option.isSome_iff_exists.1 h
      rcases busy_find w hd with rfl | rfl | rfl <;> decide
    · rintro (rfl | ⟨h, -⟩)
      · rfl
      · have : id.toNat = 0 ∨ id.toNat = 1 ∨ id.toNat = 2 := by omega
        rcases this with e | e | e
        · obtain rfl : id = 0 := BitVec.eq_of_toNat_eq e
          rfl
        · obtain rfl : id = 1 := BitVec.eq_of_toNat_eq e
          rfl
        · obtain rfl : id = 2 := BitVec.eq_of_toNat_eq e
          rfl

/-- A table of `2^n` slots, every identifier but 0 bound to an array of no words, the chain empty. -/
def fullTable (n : Nat) : State :=
  { State.reset with
    mem := { image := Descriptor.empty
             arrays := (List.range' 1 (2 ^ n - 1)).map fun id => (id, Descriptor.zeros 0) }
    cap := 2 ^ n }

theorem fullTable_rising (n : Nat) : KeyMap.Rising (fullTable n).mem.arrays := by
  rw [KeyMap.Rising, fullTable, List.map_map]
  exact List.Pairwise.map _ (fun _ _ h => h) List.pairwise_lt_range'

theorem fullTable_active (n : Nat) (id : Word) :
    (fullTable n).mem.active id = true ↔ id.toNat < 2 ^ n := by
  have hpos : 0 < 2 ^ n := Nat.two_pow_pos n
  by_cases h0 : id = 0
  · subst h0
    exact iff_of_true rfl hpos
  have hid : id.toNat ≠ 0 := fun e => h0 (BitVec.eq_of_toNat_eq e)
  rw [Memory.active, Memory.find, if_neg h0]
  constructor
  · intro h
    obtain ⟨d, hd⟩ := Option.isSome_iff_exists.1 h
    obtain ⟨k, hk, e⟩ := List.mem_map.1 (KeyMap.mem_of_get hd)
    rw [List.mem_range'_1] at hk
    cases e
    omega
  · intro h
    have hm : (id.toNat, Descriptor.zeros 0) ∈ (fullTable n).mem.arrays :=
      List.mem_map.2 ⟨id.toNat, List.mem_range'_1.2 (by omega), rfl⟩
    rw [KeyMap.get_of_mem (fullTable_rising n) hm]
    rfl

/-- With `n = 32` no identifier is left: a state of the invariant with REL = [] and NXT = 2^32. -/
theorem witness_no_identifier_left :
    (fullTable 32).Inv ∧ Reduced (fullTable 32) [] (2 ^ 32) ∧ (fullTable 32).free = [] ∧
      (fullTable 32).cap = 2 ^ 32 := by
  refine ⟨?_, ?_, rfl, rfl⟩
  · exact {
      memory := by
        refine ⟨by decide, fullTable_rising 32, fun p hp => ?_⟩
        obtain ⟨k, hk, rfl⟩ := List.mem_map.1 hp
        rw [List.mem_range'_1] at hk
        exact ⟨by omega, by rw [Config.maxCapacity]; omega, Descriptor.zeros_wf 0⟩
      program := rfl
      chainNodup := List.nodup_nil
      chainRange := fun id h => nomatch h
      chainInactive := fun id h => nomatch h
      covered := fun id _ h => .inl ((fullTable_active 32 id).2 h)
      activeRange := fun id h => (fullTable_active 32 id).1 h
      capacity := ⟨32, Nat.le_refl _, rfl⟩
      storage := rfl }
  · exact {
      range := ⟨Nat.one_le_two_pow, Nat.le_refl _⟩
      chain := by
        rw [fullTable, Nat.sub_self]
        rfl
      active := fun id => by
        rw [fullTable_active]
        exact ⟨fun h => .inr ⟨h, List.not_mem_nil⟩, fun _ => id.isLt⟩ }

/-- After `DEL R1` of array 1 in trace T1's state two steps run in which no NEW returns 1, and two
registers hold the identifier. -/
theorem witness_freed :
    ∃ t, exec (.del 1) ((busy 0x90000001).setReg 1 1 |>.setReg 2 1) = .next t ∧
      t.reg 1 = 1 ∧ t.reg 2 = 1 ∧ t.mem.active 1 = false ∧ ∀ j < 2,
      ¬ NewReturned 1 (Run.after (.finite []) j { core := t, given := 0 }).core
        (Run.after (.finite []) (j + 1) { core := t, given := 0 }).core := by
  refine ⟨_, rfl, by decide, by decide, by decide, fun j hj => ?_⟩
  rintro ⟨⟨hr, hi⟩, hx⟩
  have : j = 0 ∨ j = 1 := by omega
  rcases this with rfl | rfl
  · revert hi
    decide
  · revert hr
    decide

/-- Two canonical memories with the same arrays, lengths and words. -/
theorem witness_equal_memories :
    (withArray 0x70000000).mem.wf ∧ (∀ id, (withArray 0x70000000).mem.len id =
      (withArray 0x70000000).mem.len id) := ⟨by decide, fun _ => rfl⟩

/-- A word of each opcode (the decoding clauses of the instruction statements). -/
theorem witness_opcodes :
    opcodeOf 0x00000158 = 0 ∧ opcodeOf 0x1000010A = 1 ∧ opcodeOf 0x20000053 = 2 ∧
    opcodeOf 0x30000081 = 3 ∧ opcodeOf 0x40000097 = 4 ∧ opcodeOf 0x50000081 = 5 ∧
    opcodeOf 0x600000B6 = 6 ∧ opcodeOf 0x7FFFFFFF = 7 ∧ opcodeOf 0x8FFFFFC8 = 8 ∧
    opcodeOf 0x9FFFFFF9 = 9 ∧ opcodeOf 0xAFFFFFF8 = 10 ∧ opcodeOf 0xBFFFFFFF = 11 ∧
    opcodeOf 0xCFFFFFC0 = 12 ∧ opcodeOf 0xDFFFFFFF = 13 ∧ opcodeOf 0xE0000000 = 14 ∧
    opcodeOf 0xFFFFFFFF = 15 := by decide

/-- Pairs of words that differ only in bits their opcode does not use. -/
theorem witness_unused_bits :
    (opcodeOf 0x3FFFFE81 = opcodeOf 0x30000081 ∧
      (0x3FFFFE81 : Word).toNat % 2 ^ 9 = (0x30000081 : Word).toNat % 2 ^ 9) ∧
    (opcodeOf 0x8FFFFFC8 = opcodeOf 0x80000008 ∧
      (0x8FFFFFC8 : Word).toNat % 2 ^ 6 = (0x80000008 : Word).toNat % 2 ^ 6) ∧
    (opcodeOf 0x9FFFFFF9 = opcodeOf 0x90000001 ∧
      (0x9FFFFFF9 : Word).toNat % 2 ^ 3 = (0x90000001 : Word).toNat % 2 ^ 3) ∧
    opcodeOf 0x7FFFFFFF = opcodeOf 0x70000000 := by decide

/-- The last index of an array of four words is inside, also in an array reached through identifier 0. -/
theorem witness_access_inside :
    (∃ d, (((withArray 0x1000010A).setReg 1 1).setReg 2 3).mem.find 1 = some d ∧
      (3 : Word).toNat < d.length.toNat) ∧
    InBounds (withArray 0x1000010A).mem 1 3 ∧ InBounds (withArray 0x1000010A).mem 0 0 :=
  ⟨⟨_, rfl, by decide⟩, ⟨_, rfl, by decide⟩, ⟨_, rfl, by decide⟩⟩

/-- The length as an index, an identifier never allocated, and any index of an array of no words are
outside. -/
theorem witness_access_outside :
    ¬ InBounds (busy 1).mem 1 4 ∧ ¬ InBounds (busy 1).mem 5 0 ∧ ¬ InBounds (busy 1).mem 2 0 := by
  refine ⟨?_, ?_, ?_⟩
  · rintro ⟨n, hn, hi⟩
    cases hn
    revert hi
    decide
  · rintro ⟨n, hn, -⟩
    cases hn
  · rintro ⟨n, hn, hi⟩
    cases hn
    revert hi
    decide

/-- A divisor that is 0 and one that is not. -/
theorem witness_divisors :
    ((one 0x50000081).setReg 1 2).reg 1 ≠ 0 ∧ (one 0x50000081).reg 1 = 0 := by decide

/-- A finite store that an allocation fills exactly, and one it exceeds by a word: 95 2.5, trace T5,
`NEW 2` after an image of one word and an array of four. -/
theorem witness_store_full :
    ¬ ExceedsStore { withArray 0x80000008 with memWords := .words 7 }
      ((withArray 0x80000008).mem.used + (2 : Word).toNat) ∧
    ExceedsStore { withArray 0x80000008 with memWords := .words 6 }
      ((withArray 0x80000008).mem.used + (2 : Word).toNat) := by
  refine ⟨?_, 6, rfl, by decide⟩
  rintro ⟨m, hm, hlt⟩
  cases hm
  revert hlt
  decide

/-- NEW with an identifier left, on the chain and by growth, and with none left. -/
theorem witness_identifiers :
    (busy 1).free ≠ [] ∧ ((withArray 0x80000008).free = [] ∧ (withArray 0x80000008).cap < 2 ^ 32) ∧
    ({ busy 1 with free := [], cap := 2 ^ 32 } : State).free = [] := by decide

/-- DEL of an active identifier; of identifier 0; of a freed one; of one out of range. -/
theorem witness_deletes :
    ((busy 1).mem.active 2 = true) ∧ (busy 1).reg 1 = 0 ∧ (busy 1).mem.active 3 = false ∧
    (busy 1).mem.active 4 = false := by decide

/-- OUT of 255 with a sink that is ready and with one that is not, and of 256. -/
theorem witness_out_values :
    (((one 0xA0000000).setReg 0 255).reg 0).toNat ≤ 255 ∧ (one 0xA0000000).outReady = true ∧
    ((one 0xA0000000).setOutReady false).outReady = false ∧
    255 < (((one 0xA0000000).setReg 0 256).reg 0).toNat := by decide

/-- INP with a byte, at the end of input, and with neither. -/
theorem witness_inputs :
    ((one 0xB0000000).deliver 0x48).input.pending = [0x48] ∧
    ((one 0xB0000000).endInput.input.pending = [] ∧ (one 0xB0000000).endInput.input.ended = true) ∧
    ((one 0xB0000000).input.pending = [] ∧ (one 0xB0000000).input.ended = false) := by decide

/-- PRG: a jump; an active source that fits a finite store exactly; one that exceeds it by a word; an
inactive source. -/
theorem witness_prg :
    (one 0xC0000035).reg 6 = 0 ∧
    (((withArray 0xC000000D).setReg 1 1).reg 1 ≠ 0 ∧
      ((withArray 0xC000000D).setReg 1 1).mem.len 1 = some 4) ∧
    ¬ ExceedsStore { withArray 0xC000000D with memWords := .words 8 } (5 + 4 - 1) ∧
    ExceedsStore { withArray 0xC000000D with memWords := .words 7 } (5 + 4 - 1) ∧
    (withArray 0xC000000D).mem.used = 5 ∧ (withArray 0xC000000D).mem.active 9 = false := by
  refine ⟨by decide, by decide, ?_, ⟨7, rfl, by decide⟩, by decide, by decide⟩
  rintro ⟨m, hm, hlt⟩
  cases hm
  revert hlt
  decide

/-- A running state with the pc at the last word, one with the pc at the length, and an ended run. -/
theorem witness_step_clauses :
    ((one 0x70000000).status = .running ∧
      (one 0x70000000).pc.toNat < (one 0x70000000).mem.image.length.toNat) ∧
    ((one 0x70000000).jump 1).mem.image.length.toNat ≤ ((one 0x70000000).jump 1).pc.toNat ∧
    ((one 0x70000000).setStatus .halted).status ≠ .running := by decide

/-- A fault in execute and one at the fetch, each with its state after. -/
theorem witness_faults :
    (∃ t, step (one 0x50000081) = .next t ∧ t.status = .faulted .divisionByZero ∧
      exec (one 0x50000081).nextInstr (one 0x50000081) = .next t) ∧
    ∃ t, step State.reset = .next t ∧ t.status = .faulted .pcOutOfBounds :=
  ⟨⟨_, rfl, rfl, rfl⟩, _, rfl, rfl⟩

/-- A step of HLT, and a step of an ended run. -/
theorem witness_run_ends :
    ((one 0x70000000).Executes ∧ (one 0x70000000).nextInstr = .hlt ∧
      ∃ t, step (one 0x70000000) = .next t ∧ t.status = .halted) ∧
    ∃ t, step ((one 0x70000000).setStatus .halted) = .next t :=
  ⟨⟨⟨rfl, by decide⟩, by decide, _, rfl, rfl⟩, _, rfl⟩

/-- A step that changes a register. -/
theorem witness_register_changes :
    ∃ t, step (one 0xD0000041) = .next t ∧ t.reg 0 ≠ (one 0xD0000041).reg 0 :=
  ⟨_, rfl, by decide⟩

/-- A step of PRG and one of LDI that leave the core running and do not hold. -/
theorem witness_sequencing :
    ((one 0xC0000035).Executes ∧ (one 0xC0000035).nextInstr = .prg 6 5 ∧
      (∃ t, step (one 0xC0000035) = .next t ∧ t.status = .running) ∧
      ¬ Holds (.prg 6 5) (one 0xC0000035)) ∧
    ((one 0xD0000041).Executes ∧ (one 0xD0000041).nextInstr = .ldi 0 0x41 ∧
      (∃ t, step (one 0xD0000041) = .next t ∧ t.status = .running) ∧
      ¬ Holds (.ldi 0 0x41) (one 0xD0000041)) :=
  ⟨⟨⟨rfl, by decide⟩, by decide, ⟨_, rfl, rfl⟩, id⟩,
    ⟨⟨rfl, by decide⟩, by decide, ⟨_, rfl, rfl⟩, id⟩⟩

/-- The longest image, all `MOV R0, R0, R0`, with the pc at its last word. -/
def lastWord : State :=
  { State.reset with mem := { image := { length := 0xFFFFFFFF, storage := [] }, arrays := [] }
                     pc := 0xFFFFFFFE }

/-- The last pc a fetch can have: one below the longest image; and the step from there. -/
theorem witness_last_pc :
    fetch lastWord = some 0 ∧ lastWord.Executes ∧ lastWord.nextInstr = .mov 0 0 0 ∧
    ¬ Holds lastWord.nextInstr lastWord ∧ answer (step lastWord) State.pc = some 0xFFFFFFFF :=
  ⟨by decide, ⟨rfl, by decide⟩, by decide, id, by decide⟩

/-- A PRG that faults: the pc goes on as after any other instruction. -/
theorem witness_prg_faults :
    ((one 0xC0000035).setReg 6 9).Executes ∧ ((one 0xC0000035).setReg 6 9).nextInstr = .prg 6 5 ∧
    ¬ Holds (.prg 6 5) ((one 0xC0000035).setReg 6 9) ∧
    ∃ t, step ((one 0xC0000035).setReg 6 9) = .next t ∧ t.status = .faulted .programFromInactive :=
  ⟨⟨rfl, by decide⟩, by decide, id, _, rfl, rfl⟩

/-- INP with a byte delivered, and an instruction that is not INP with none. -/
theorem witness_more_input :
    (((one 0xB0000000).deliver 0x48).input.pending ≠ [] ∧
      ∃ t, step ((one 0xB0000000).deliver 0x48) = .next t) ∧
    (one 0xD0000041).nextInstr = .ldi 0 0x41 ∧ ∃ t, step (one 0xD0000041) = .next t :=
  ⟨⟨by decide, _, rfl⟩, by decide, _, rfl⟩

/-- A held INP and a held OUT. -/
theorem witness_holds :
    ((one 0xB0000000).Executes ∧ (one 0xB0000000).nextInstr = .inp 0 ∧
      Holds (.inp 0) (one 0xB0000000)) ∧
    ((one 0xA0000000).setOutReady false).Executes ∧
      ((one 0xA0000000).setOutReady false).nextInstr = .out 0 ∧
      Holds (.out 0) ((one 0xA0000000).setOutReady false) :=
  ⟨⟨⟨rfl, by decide⟩, by decide, rfl, rfl⟩, ⟨rfl, by decide⟩, by decide, by decide, rfl⟩

/-- A step in a state of the invariant after which an array and an element are still there: `STA R1,
R2, R3` with R1 = 1 changes element 0 of array 1. -/
theorem witness_store_step :
    ((busy 0x20000053).setReg 1 1 |>.setReg 3 7).Executes ∧
    ∃ t, step ((busy 0x20000053).setReg 1 1 |>.setReg 3 7) = .next t ∧
      ((busy 0x20000053).setReg 1 1 |>.setReg 3 7).mem.read 1 0 = .ok 0 ∧
      t.mem.read 1 0 = .ok 7 ∧ ((busy 0x20000053).setReg 1 1).mem.len 1 = some 4 ∧
      t.mem.len 1 = some 4 :=
  ⟨⟨rfl, by decide⟩, _, rfl, rfl, rfl, rfl, rfl⟩

/-- The state of the last witness meets the invariant. -/
theorem witness_store_step_inv : ((busy 0x20000053).setReg 1 1 |>.setReg 3 7).Inv := by
  obtain ⟨h1, h2, h3, h4, h5, h6, h7, h8, h9⟩ := witness_inv (w := 0x20000053) (by decide)
  exact ⟨h1, h2, h3, h4, h5, h6, h7, h8, h9⟩

/-- A step after which an identifier is no longer active. -/
theorem witness_delete_step :
    ∃ t, step ((busy 0x90000001).setReg 1 1) = .next t ∧
      ((busy 0x90000001).setReg 1 1).mem.active 1 ≠ t.mem.active 1 :=
  ⟨_, rfl, by decide⟩

/-- A store to the running program that overwrites the word the next fetch reads. -/
theorem witness_patch :
    ∃ t, exec (.sta 6 2 0) (((one 0x20000190).setReg 0 0x70000000).jump 0xFFFFFFFF) = .next t ∧
      (((one 0x20000190).setReg 0 0x70000000).jump 0xFFFFFFFF).status = .running ∧
      (((one 0x20000190).setReg 0 0x70000000).jump 0xFFFFFFFF).reg 6 = 0 ∧
      (0 : Word).toNat < (one 0x20000190).mem.image.length.toNat ∧
      t.pc = (((one 0x20000190).setReg 0 0x70000000).jump 0xFFFFFFFF).reg 2 :=
  ⟨_, rfl, rfl, by decide, by decide, by decide⟩

/-- A PRG that installs array 1, after which registers hold the identifier and 0: a store of 7 to array 1
and one to the program both complete, each in its own array. -/
theorem witness_copy :
    ((busy 0xC000000D).setReg 1 1).reg 1 ≠ 0 ∧
    ((busy 0xC000000D).setReg 1 1).mem.len 1 = some 4 ∧
    ¬ ExceedsStore ((busy 0xC000000D).setReg 1 1) (5 + 4 - 1) ∧
    ((busy 0xC000000D).setReg 1 1).mem.used = 5 ∧
    ∃ t, exec (.prg 1 5) ((busy 0xC000000D).setReg 1 1 |>.setReg 3 7) = .next t ∧ t.reg 1 = 1 ∧
      t.reg 0 = 0 ∧ (∃ u, exec (.sta 1 2 3) t = .next u ∧ u.mem.read 1 0 = .ok 7 ∧
        u.mem.read 0 0 = .ok 0) ∧
      ∃ u, exec (.sta 0 2 3) t = .next u ∧ u.mem.read 0 0 = .ok 7 ∧ u.mem.read 1 0 = .ok 0 := by
  refine ⟨by decide, by decide, ?_, by decide, _, rfl, by decide, by decide,
    ⟨_, rfl, rfl, rfl⟩, _, rfl, rfl, rfl⟩
  rintro ⟨m, hm, -⟩
  cases hm

/-- An allocation from the chain and one that grows the table. -/
theorem witness_allocate :
    (∃ t, allocate 5 (busy 1) = .ok (3, t)) ∧
    ∃ t, allocate 5 (withArray 1) = .ok (2, t) ∧ (withArray 1).free = [] :=
  ⟨⟨_, rfl⟩, _, rfl, rfl⟩

/-- A NEW of the reduced state that completes: it answers NXT = 3. -/
theorem witness_reduced_new :
    (busy 0x80000008).status = .running ∧
    ∃ t, exec (.new 1 0) (busy 0x80000008) = .next t ∧ t.status = .running ∧ t.reg 1 = 3 :=
  ⟨rfl, _, rfl, rfl, by decide⟩

/-- A step of a machine with a finite store that does not end in alloc-exhausted. -/
theorem witness_finite_store :
    ∃ t, step { withArray 0x80000008 with memWords := .words 7 } = .next t ∧
      t.status ≠ .faulted .allocExhausted :=
  ⟨_, rfl, by decide⟩

/-- A reset of a halted core with a new program, and a load. -/
theorem witness_reset_and_load :
    (∃ t, State.hostReset ((one 0x70000000).setStatus .halted) [0x70, 0, 0, 0]
      { pending := [], ended := true } = some t) ∧
    ∃ d, loadImage .unbounded [0x70, 0, 0, 0, 0xAB] = some d :=
  ⟨⟨_, rfl⟩, _, rfl⟩

/-- The longest stream that loads the empty program. -/
theorem witness_short_stream : ([0x70, 0, 0] : List Byte).length < 4 := by decide

/-- A run that ends: HLT. -/
theorem witness_run : Ends .unbounded [0x70, 0, 0, 0] (.finite []) [] 0 :=
  ⟨_, 1, rfl, rfl, rfl⟩

/-- A run at an `INP R0` with nothing transferred, `n` bytes handed over before. -/
def atInp (n : Nat) : Run := { core := one 0xB0000000, given := n }

/-- A run that holds at an INP, with each thing the host can do next: a byte of a finite stream and of an
infinite one, the end, and nothing. -/
theorem witness_transfers (byteAt : Nat → Byte) :
    (atInp 1).core.Executes ∧ (atInp 1).core.nextInstr = .inp 0 ∧
    Holds (.inp 0) (atInp 1).core ∧
    InputStream.transfer (.finite [0x48, 0x69]) 1 = some (.byte 0x69) ∧
    InputStream.transfer (.infinite byteAt) 1 = some (.byte (byteAt 1)) ∧
    InputStream.transfer (.finite [0x48]) 1 = some .endOfInput ∧
    InputStream.transfer (.stalled [0x48]) 1 = none :=
  ⟨⟨rfl, by decide⟩, by decide, ⟨rfl, rfl⟩, rfl, rfl, rfl, rfl⟩

/-- R193: the byte of an infinite stream that INP reads is the next one not handed over yet. -/
theorem test_inp_of_infinite_stream :
    (((atInp 2).next (.infinite fun n => BitVec.ofNat 8 (n + 0x41))).core.reg 0,
      ((atInp 2).next (.infinite fun n => BitVec.ofNat 8 (n + 0x41))).given) = (0x43, 3) := by decide

/-- Two streams, one finite and one infinite, that agree on the byte handed over and the one behind it. -/
theorem witness_streams_agree :
    ((atInp 0).after (.finite [0, 1]) 1).given = 1 ∧
    ∀ j ≤ 1, InputStream.transfer (.infinite fun n => BitVec.ofNat 8 n) j =
      InputStream.transfer (.finite [0, 1]) j := by decide

/-- A program, INP then HLT, loaded both ways. -/
theorem witness_delivered_at_reset :
    (∃ r, Run.start .unbounded [0xB0, 0, 0, 0, 0x70, 0, 0, 0] = some r) ∧
    ∃ s, State.boot .unbounded [0xB0, 0, 0, 0, 0x70, 0, 0, 0] { pending := [0x48], ended := true } =
      some s := ⟨⟨_, rfl⟩, _, rfl⟩

/-- A run in which the core does not wait goes as the core does. -/
theorem next_without_input {inp : InputStream} {s t : State} {n : Nat} (hw : s.awaitsInput = false)
    (h : step s = .next t) : Run.next inp { core := s, given := n } = { core := t, given := n } := by
  have e := Run.supply_of_not_awaits (inp := inp) (r := { core := s, given := n }) hw
  rw [Run.next_eq (t := t) (by rw [e]; exact h), e]

/-- A run that diverges with the empty sequence: `PRG R0, R0` at index 0 jumps to itself. -/
theorem witness_diverges (inp : InputStream) :
    Diverges .unbounded [0xC0, 0, 0, 0] inp (.finite []) := by
  have stays : Run.next inp { core := one 0xC0000000, given := 0 } =
      { core := one 0xC0000000, given := 0 } := next_without_input (by decide) rfl
  have fixed : ∀ k, Run.after inp k { core := one 0xC0000000, given := 0 } =
      { core := one 0xC0000000, given := 0 } := by
    intro k
    induction k with
    | zero => rfl
    | succ k ih => rw [Run.after_succ, stays, ih]
  refine ⟨{ core := one 0xC0000000, given := 0 }, rfl, fun k => ?_, 0, fun k _ => ?_⟩
  · rw [fixed]
    rfl
  · show (Run.after inp k { core := one 0xC0000000, given := 0 }).core.outs = []
    rw [fixed]
    rfl

/-- The core in the loop `OUT R0; PRG R1, R1` at the word at `pc`, `n` bytes emitted. -/
def emitting (pc : Word) (n : Nat) : State :=
  { State.reset with
    pc := pc
    mem := { image := { length := 2, storage := [(0, 0xA0000000), (1, 0xC0000009)] }, arrays := [] }
    outs := List.replicate n 0 }

/-- A run that diverges with an infinite sequence: that loop emits 0 for ever. -/
theorem witness_diverges_infinite (inp : InputStream) :
    Diverges .unbounded [0xA0, 0, 0, 0, 0xC0, 0, 0, 9] inp (.infinite fun _ => 0) := by
  have out : ∀ n, Run.next inp { core := emitting 0 n, given := 0 } =
      { core := emitting 1 (n + 1), given := 0 } := by
    intro n
    have hf : fetch (emitting 0 n) = some 0xA0000000 := rfl
    have hs : step (emitting 0 n) = exec (decode 0xA0000000) (emitting 0 n) := rfl
    rw [next_without_input (t := (emitting 0 n).advance.emit 0)
      (by rw [State.awaitsInput, hf]; rfl) (hs.trans rfl)]
    simp only [emitting, List.replicate_succ']
    rfl
  have jump : ∀ n, Run.next inp { core := emitting 1 n, given := 0 } =
      { core := emitting 0 n, given := 0 } := by
    intro n
    have hf : fetch (emitting 1 n) = some 0xC0000009 := rfl
    have hs : step (emitting 1 n) = exec (decode 0xC0000009) (emitting 1 n) := rfl
    rw [next_without_input (t := (emitting 1 n).jump 0)
      (by rw [State.awaitsInput, hf]; rfl) (hs.trans rfl)]
    rfl
  have rounds : ∀ n, Run.after inp (2 * n) { core := emitting 0 0, given := 0 } =
      { core := emitting 0 n, given := 0 } := by
    intro n
    induction n with
    | zero => rfl
    | succ n ih =>
      rw [Nat.mul_succ, Run.after_add, ih, Run.after_succ, out, Run.after_succ, jump, Run.after_zero]
  refine ⟨{ core := emitting 0 0, given := 0 }, rfl, fun k => ?_, fun n => ⟨2 * (n + 1), ?_⟩⟩
  · obtain ⟨n, rfl | rfl⟩ : ∃ n, k = 2 * n ∨ k = 2 * n + 1 := ⟨k / 2, by omega⟩
    · rw [rounds]
      rfl
    · rw [Run.after_step, rounds, out]
      rfl
  · show (Run.after inp (2 * (n + 1)) { core := emitting 0 0, given := 0 }).core.outs[n]? = some 0
    rw [rounds]
    simp [emitting]

/-- A load that is refused has no run. -/
theorem witness_refused_run : Run.start (.words 0) [0x70, 0, 0, 0] = none := by decide

/-- The interface's machine steps as the model does. -/
theorem test_core_step : core.step = Machine.step := rfl

end Sys2Proof.Tests
end

/-! SUPPORT. The invariant of R28 and the capacity: what an instruction does to the memory, to the table of
identifiers and to the words in use (O41, O46). -/

namespace Sys2Proof.Machine

/-! ### Which identifiers are active after an operation on the array space -/

theorem Memory.active_congr {m m' : Memory} {id : Word} (h : m'.find id = m.find id) :
    m'.active id = m.active id := by
  rw [Memory.active, Memory.active, h]

theorem Memory.active_of_find {m : Memory} {id : Word} {d : Descriptor} (h : m.find id = some d) :
    m.active id = true := by
  rw [Memory.active, h]
  rfl

theorem Memory.find_eq_none_of_inactive {m : Memory} {id : Word} (h : m.active id = false) :
    m.find id = none := by
  simpa [Memory.active] using h

theorem Memory.active_bind_iff (m : Memory) (id : Word) (d : Descriptor) (x : Word) :
    (m.bind id d).active x = true ↔ x = id ∨ m.active x = true := by
  by_cases hx : x = id
  · subst x
    simp [Memory.active_of_find (m.bind_find_self id d)]
  · simp [Memory.active_congr (m.bind_find_other d hx), hx]

theorem Memory.active_bind_of_active {m : Memory} {id : Word} (d : Descriptor)
    (h : m.active id = true) (x : Word) : (m.bind id d).active x = m.active x := by
  rw [Bool.eq_iff_iff, m.active_bind_iff]
  exact or_iff_right_of_imp fun hx => hx ▸ h

theorem Memory.active_unbind_iff (m : Memory) {id : Word} (h : id ≠ 0) (x : Word) :
    (m.unbind id).active x = true ↔ x ≠ id ∧ m.active x = true := by
  by_cases hx : x = id
  · subst x
    simp [Memory.active, m.unbind_find_self h]
  · simp [Memory.active_congr (m.unbind_find_other hx), hx]

@[simp] theorem Memory.active_setImage (m : Memory) (d : Descriptor) (x : Word) :
    (m.setImage d).active x = m.active x := by
  by_cases hx : x = 0
  · subst x
    rfl
  · exact Memory.active_congr (m.setImage_find_other d hx)

/-! ### What an instruction does to the array table -/

/-- The free chain, the capacity and the set of active identifiers are as before. -/
structure SameTable (s t : State) : Prop where
  free : t.free = s.free
  cap : t.cap = s.cap
  active : ∀ x, t.mem.active x = s.mem.active x

/-- The four things an instruction can do to the identifiers: nothing, NEW from the chain, NEW by growth
(R170, R172), DEL (R171). -/
inductive TableMove (i : Instr) (s t : State) : Prop where
  | same (htable : SameTable s t)
      (hi : ((∀ b c, i ≠ .new b c) ∧ ∀ c, i ≠ .del c) ∨ ∃ k, t.status = .faulted k)
  | reuse (b c : RegId) (id : Word) (hi : i = .new b c) (hfree : s.free = id :: t.free)
      (hcap : t.cap = s.cap) (hreg : t.reg b = id) (hstatus : t.status = s.status)
      (hactive : ∀ x, t.mem.active x = true ↔ x = id ∨ s.mem.active x = true)
  | grow (b c : RegId) (hi : i = .new b c) (hempty : s.free = []) (hlt : s.cap < 2 ^ 32)
      (hfree : t.free = newSlots s.cap) (hcap : t.cap = 2 * s.cap)
      (hreg : t.reg b = BitVec.ofNat 32 s.cap) (hstatus : t.status = s.status)
      (hactive : ∀ x, t.mem.active x = true ↔
        x = BitVec.ofNat 32 s.cap ∨ s.mem.active x = true)
  | release (c : RegId) (hi : i = .del c) (hne : s.reg c ≠ 0)
      (hwas : s.mem.active (s.reg c) = true) (hfree : t.free = s.reg c :: s.free)
      (hcap : t.cap = s.cap) (hstatus : t.status = s.status)
      (hactive : ∀ x, t.mem.active x = true ↔ x ≠ s.reg c ∧ s.mem.active x = true)

/-- A register-only write is no array manager instruction. -/
theorem WritesValue.not_manager {i : Instr} {s : State} {a : RegId} {v : Word}
    (h : WritesValue i s a v) : (∀ b c, i ≠ .new b c) ∧ ∀ c, i ≠ .del c := by
  cases h <;> simp

/-- An instruction that can hold is no array manager instruction. -/
theorem Holds.not_manager {i : Instr} {s : State} (h : Holds i s) :
    (∀ b c, i ≠ .new b c) ∧ ∀ c, i ≠ .del c :=
  ⟨by rintro b c rfl; exact h, by rintro c rfl; exact h⟩

theorem Ran.tableMove {i : Instr} {s t : State} (h : Ran i s t) : TableMove i s t := by
  cases h with
  | write h => exact .same ⟨rfl, rfl, fun _ => rfl⟩ (.inl h.not_manager)
  | hold h => exact .same ⟨rfl, rfl, fun _ => rfl⟩ (.inl h.not_manager)
  | fault h => exact .same ⟨rfl, rfl, fun _ => rfl⟩ (.inr ⟨_, rfl⟩)
  | store hd _ =>
    exact .same ⟨rfl, rfl, Memory.active_bind_of_active _ (Memory.active_of_find hd)⟩
      (.inl (by simp))
  | install _ _ _ => exact .same ⟨rfl, rfl, Memory.active_setImage _ _⟩ (.inl (by simp))
  | newReuse hf _ =>
    exact .reuse _ _ _ rfl hf rfl (State.setReg_reg_self _ _ _) rfl (Memory.active_bind_iff _ _ _)
  | newGrow hf hc _ =>
    exact .grow _ _ rfl hf hc rfl rfl (State.setReg_reg_self _ _ _) rfl
      (Memory.active_bind_iff _ _ _)
  | del h0 ha => exact .release _ rfl h0 ha rfl rfl rfl (Memory.active_unbind_iff _ h0)
  | _ => exact .same ⟨rfl, rfl, fun _ => rfl⟩ (.inl (by simp))

/-! ### The invariant of the array table -/

/-- Items 3 to 6 of R28 and the shape of the capacity, of a chain, a capacity and a set of active
identifiers. -/
structure TableInv (free : List Word) (cap : Nat) (active : Word → Prop) : Prop where
  chainNodup : free.Nodup
  chainRange : ∀ id ∈ free, id ≠ 0 ∧ id.toNat < cap
  chainInactive : ∀ id ∈ free, ¬ active id
  covered : ∀ id : Word, id ≠ 0 → id.toNat < cap → active id ∨ id ∈ free
  activeRange : ∀ id, active id → id.toNat < cap
  capacity : ∃ k ≤ 32, cap = 2 ^ k

/-- The table part of the invariant of R28. -/
theorem State.Inv.tableInv {s : State} (h : s.Inv) :
    TableInv s.free s.cap fun x => s.mem.active x = true :=
  ⟨h.chainNodup, h.chainRange, fun id hid => by simp [h.chainInactive id hid], h.covered,
    h.activeRange, h.capacity⟩

/-- The invariant of R28 is that of the memory, of the table and of the store. -/
theorem State.Inv.of_parts {s : State} (hm : s.mem.wf)
    (ht : TableInv s.free s.cap fun x => s.mem.active x = true)
    (hs : s.fits s.mem.used = true) : s.Inv :=
  ⟨hm, rfl, ht.chainNodup, ht.chainRange,
    fun id hid => Bool.eq_false_iff.2 (ht.chainInactive id hid), ht.covered, ht.activeRange,
    ht.capacity, hs⟩

section
variable {free : List Word} {cap : Nat} {active : Word → Prop}

theorem TableInv.cap_le (h : TableInv free cap active) : cap ≤ 2 ^ 32 := by
  obtain ⟨k, hk, rfl⟩ := h.capacity
  exact Nat.pow_le_pow_right (by decide) hk

theorem TableInv.cap_pos (h : TableInv free cap active) : 0 < cap := by
  obtain ⟨k, -, rfl⟩ := h.capacity
  exact Nat.two_pow_pos k

/-- A capacity below 2^32 can be doubled. -/
theorem TableInv.capacity_double (h : TableInv free cap active) (hc : cap < 2 ^ 32) :
    ∃ k ≤ 32, 2 * cap = 2 ^ k := by
  obtain ⟨k, -, rfl⟩ := h.capacity
  have hk : k < 32 := (Nat.pow_lt_pow_iff_right (by decide)).1 hc
  exact ⟨k + 1, hk, by rw [Nat.pow_succ, Nat.mul_comm]⟩

/-- Taking the head of the chain. -/
theorem TableInv.reuse {id : Word} (h : TableInv (id :: free) cap active) :
    TableInv free cap fun x => x = id ∨ active x := by
  obtain ⟨hid, hnodup⟩ := List.nodup_cons.1 h.chainNodup
  refine ⟨hnodup, fun x hx => h.chainRange x (.tail _ hx), ?_, ?_, ?_, h.capacity⟩
  · rintro x hx (rfl | ha)
    · exact hid hx
    · exact h.chainInactive x (.tail _ hx) ha
  · intro x h0 hlt
    have := h.covered x h0 hlt
    rw [List.mem_cons] at this
    tauto
  · rintro x (rfl | ha)
    · exact (h.chainRange x (.head _)).2
    · exact h.activeRange x ha

/-- Growth with an empty chain (R172). -/
theorem TableInv.grow (h : TableInv [] cap active) (hc : cap < 2 ^ 32) :
    TableInv (newSlots cap) (2 * cap) fun x => x = BitVec.ofNat 32 cap ∨ active x := by
  have hcapacity := h.capacity_double hc
  have hle : 2 * cap ≤ 2 ^ 32 := by
    obtain ⟨k, hk, e⟩ := hcapacity
    exact e ▸ Nat.pow_le_pow_right (by decide) hk
  have hid : (BitVec.ofNat 32 cap).toNat = cap := Nat.mod_eq_of_lt hc
  refine ⟨newSlots_nodup hle, ?_, ?_, ?_, ?_, hcapacity⟩
  · intro x hx
    obtain ⟨hgt, hlt⟩ := (mem_newSlots hle).1 hx
    refine ⟨?_, hlt⟩
    rintro rfl
    simp at hgt
  · intro x hx
    obtain ⟨hgt, -⟩ := (mem_newSlots hle).1 hx
    rintro (rfl | ha)
    · omega
    · have := h.activeRange x ha
      omega
  · intro x h0 hlt
    rcases Nat.lt_trichotomy x.toNat cap with hx | hx | hx
    · exact .inl (.inr ((h.covered x h0 hx).resolve_right List.not_mem_nil))
    · exact .inl (.inl (BitVec.eq_of_toNat_eq (hx.trans hid.symm)))
    · exact .inr ((mem_newSlots hle).2 ⟨hx, hlt⟩)
  · rintro x (rfl | ha)
    · have := h.cap_pos
      omega
    · have := h.activeRange x ha
      omega

/-- Pushing an active identifier on the chain (R171). -/
theorem TableInv.release {id : Word} (h : TableInv free cap active) (h0 : id ≠ 0)
    (ha : active id) : TableInv (id :: free) cap fun x => x ≠ id ∧ active x := by
  refine ⟨List.nodup_cons.2 ⟨fun hm => h.chainInactive id hm ha, h.chainNodup⟩, ?_, ?_, ?_,
    fun x hx => h.activeRange x hx.2, h.capacity⟩
  · intro x hx
    rcases List.mem_cons.1 hx with rfl | hx
    · exact ⟨h0, h.activeRange x ha⟩
    · exact h.chainRange x hx
  · intro x hx
    rcases List.mem_cons.1 hx with rfl | hx
    · exact fun hn => hn.1 rfl
    · exact fun hn => h.chainInactive x hx hn.2
  · intro x hx0 hlt
    have := h.covered x hx0 hlt
    rw [List.mem_cons]
    tauto

end

/-- Every move keeps the invariant of the table. -/
theorem TableMove.tableInv {i : Instr} {s t : State} (h : TableMove i s t)
    (hs : TableInv s.free s.cap fun x => s.mem.active x = true) :
    TableInv t.free t.cap fun x => t.mem.active x = true := by
  cases h with
  | same htable _ =>
    obtain ⟨hfree, hcap, hactive⟩ := htable
    simpa only [hfree, hcap, hactive] using hs
  | reuse b c id _ hfree hcap _ _ hactive =>
    rw [hfree] at hs
    simpa only [hcap, hactive] using hs.reuse
  | grow b c _ hempty hlt hfree hcap _ _ hactive =>
    rw [hempty] at hs
    simpa only [hfree, hcap, hactive] using hs.grow hlt
  | release c _ hne hwas hfree hcap _ hactive =>
    simpa only [hfree, hcap, hactive] using hs.release hne hwas

/-! ### The invariant of R28 -/

/-- Every instruction keeps the canonical form of the memory. -/
theorem Ran.mem_wf {i : Instr} {s t : State} (h : Ran i s t) (hm : s.mem.wf) : t.mem.wf := by
  cases h with
  | store hd hi => exact Memory.bind_wf hm _ (Descriptor.store_wf (Memory.find_wf hm hd) hi _)
  | newReuse _ _ => exact Memory.bind_wf hm _ (Descriptor.zeros_wf _)
  | newGrow _ _ _ => exact Memory.bind_wf hm _ (Descriptor.zeros_wf _)
  | del _ _ => exact Memory.unbind_wf hm _
  | install _ hd _ => exact Memory.setImage_wf hm (Memory.find_wf hm hd)
  | _ => exact hm

/-- The slot that growth returns was not active. -/
theorem State.Inv.cap_inactive {s : State} (h : s.Inv) (hc : s.cap < 2 ^ 32) :
    s.mem.active (BitVec.ofNat 32 s.cap) = false := by
  rw [← Bool.not_eq_true]
  intro ha
  have := h.activeRange _ ha
  rw [BitVec.toNat_ofNat, Nat.mod_eq_of_lt hc] at this
  omega

/-- Every instruction keeps the words in use inside the store (R173, R201). -/
theorem Ran.storage {i : Instr} {s t : State} (h : Ran i s t) (hs : s.Inv) :
    t.fits t.mem.used = true := by
  have hfits : s.fits s.mem.used = true := hs.storage
  cases h with
  | store hd hi =>
    show s.fits (s.mem.bind _ _).used = true
    rwa [Memory.used_bind_same hs.memory hd (Descriptor.store_length _ _ _)]
  | @newReuse b c _ id rest hf hw =>
    have hfind := Memory.find_eq_none_of_inactive (hs.chainInactive id (hf ▸ .head _))
    show s.fits (s.mem.bind _ _).used = true
    rwa [Memory.used_bind_inactive _ hfind]
  | newGrow hf hc hw =>
    have hfind := Memory.find_eq_none_of_inactive (hs.cap_inactive hc)
    show s.fits (s.mem.bind _ _).used = true
    rwa [Memory.used_bind_inactive _ hfind]
  | del _ _ => exact s.fits_mono hfits (Memory.used_unbind_le _ _)
  | install _ _ hw =>
    show s.fits (s.mem.setImage _).used = true
    rwa [Memory.used_setImage]
  | _ => exact hfits

theorem Ran.inv {i : Instr} {s t : State} (h : Ran i s t) (hs : s.Inv) : t.Inv :=
  .of_parts (h.mem_wf hs.memory) (h.tableMove.tableInv hs.tableInv) (h.storage hs)

/-- The invariant of R28 does not look at the status. -/
theorem State.Inv.setStatus {s : State} (h : s.Inv) (x : Status) : (s.setStatus x).Inv :=
  .of_parts h.memory h.tableInv h.storage

theorem step_inv {s t : State} (hs : s.Inv) (h : step s = .next t) : t.Inv := by
  rcases step_ran h with ⟨_, _, hran⟩ | ⟨_, _, rfl⟩ | ⟨_, rfl⟩
  · exact hran.inv hs
  · exact hs.setStatus _
  · exact hs

/-- Settles O46: executing an instruction keeps each of the three parts of the invariant, and a step
that executes none changes only the status. -/
theorem invariantKeptByEveryStep : Obligations.InvariantKeptByEveryStep :=
  fun _ _ => step_inv

/-- Settles O41: only growth changes the capacity, and the bound is the invariant's after the step. -/
theorem capacityOnlyGrows : Obligations.CapacityOnlyGrows := by
  intro s t hs h
  refine ⟨(step_inv hs h).tableInv.cap_le, ?_⟩
  rcases step_ran h with ⟨hexec, _, hran⟩ | ⟨_, _, rfl⟩ | ⟨_, rfl⟩
  · cases hran.tableMove with
    | same htable _ => exact .inl htable.cap
    | reuse _ _ _ _ _ hcap => exact .inl hcap
    | release _ _ _ _ _ hcap => exact .inl hcap
    | grow b c hi hempty _ _ hcap =>
      have hpos := hs.tableInv.cap_pos
      exact .inr ⟨by omega, hempty, hexec, b, c, hi⟩
  · exact .inl rfl
  · exact .inl rfl

end Sys2Proof.Machine

/-! SUPPORT. The reduced state of R37 and the moves of the table of identifiers (O48). -/

namespace Sys2Proof.Machine

/-! ### The reduced state (R37) -/

/-- The identifiers never returned that stand on the chain, `[nxt, ..., cap-1]` (R37). -/
def freshChain (nxt cap : Nat) : List Word :=
  (List.range' nxt (cap - nxt)).map (BitVec.ofNat 32)

theorem freshChain_eq_nil_iff {nxt cap : Nat} : freshChain nxt cap = [] ↔ cap ≤ nxt := by
  simp [freshChain, Nat.sub_eq_zero_iff_le]

theorem freshChain_cons {nxt cap : Nat} (h : nxt < cap) :
    freshChain nxt cap = BitVec.ofNat 32 nxt :: freshChain (nxt + 1) cap := by
  rw [freshChain, show cap - nxt = (cap - (nxt + 1)) + 1 by omega, List.range'_succ]
  rfl

/-- Growth puts on the chain what is fresh of the grown table but its least identifier. -/
theorem newSlots_eq_freshChain (cap : Nat) : newSlots cap = freshChain (cap + 1) (2 * cap) := by
  rw [newSlots, freshChain, show 2 * cap - (cap + 1) = cap - 1 by omega]

theorem mem_freshChain {nxt cap : Nat} {id : Word} (h1 : nxt ≤ id.toNat) (h2 : id.toNat < cap) :
    id ∈ freshChain nxt cap :=
  List.mem_map.2 ⟨id.toNat, List.mem_range'_1.2 (by omega), by simp⟩

/-- R37 moves the reduced state only at NEW and DEL. -/
theorem reducedAfter_other {i : Instr} (hn : ∀ b c, i ≠ .new b c) (hd : ∀ c, i ≠ .del c)
    (s : State) (rel : List Word) (nxt : Nat) : reducedAfter i s rel nxt = (rel, nxt) := by
  cases i with
  | new b c => exact absurd rfl (hn b c)
  | del c => exact absurd rfl (hd c)
  | _ => rfl

section
variable {s t : State} {rel : List Word} {nxt : Nat} {id : Word}

theorem Reduced.free_eq (h : Reduced s rel nxt) : s.free = rel ++ freshChain nxt s.cap := h.chain

/-- The chain is empty exactly when nothing is released and every slot was returned. -/
theorem Reduced.free_eq_nil_iff (h : Reduced s rel nxt) :
    s.free = [] ↔ rel = [] ∧ nxt = s.cap := by
  have hle := h.range.2
  rw [h.free_eq, List.append_eq_nil_iff, freshChain_eq_nil_iff]
  exact and_congr_right fun _ => ⟨fun hge => by omega, fun he => by omega⟩

/-- No identifier is left exactly when REL is empty and NXT = 2^32 (R37, R173). -/
theorem Reduced.exhausted_iff (h : Reduced s rel nxt) (hs : s.Inv) :
    (s.free = [] ∧ 2 ^ 32 ≤ s.cap) ↔ (rel = [] ∧ nxt = 2 ^ 32) := by
  have hcap := hs.tableInv.cap_le
  have hle := h.range.2
  rw [h.free_eq_nil_iff, and_assoc]
  exact and_congr_right fun _ => ⟨fun ⟨he, hge⟩ => by omega, fun he => ⟨by omega, by omega⟩⟩

theorem Reduced.of_sameTable (h : Reduced s rel nxt) (ht : SameTable s t) : Reduced t rel nxt := by
  obtain ⟨hfree, hcap, hactive⟩ := ht
  exact ⟨hcap ▸ h.range, by rw [hfree, hcap, h.chain], fun x => by rw [hactive, h.active]⟩

/-- The identifiers released are below the least fresh one. -/
theorem Reduced.rel_lt (h : Reduced s rel nxt) (hs : s.Inv) (hid : id ∈ rel) :
    id.toNat < nxt := by
  have hfree := h.free_eq
  have hcap := (hs.chainRange id (by simp [hfree, hid])).2
  have hdisjoint := List.disjoint_of_nodup_append (hfree ▸ hs.chainNodup)
  by_contra hge
  exact hdisjoint hid (mem_freshChain (by omega) hcap)

theorem Reduced.rel_nodup (h : Reduced s rel nxt) (hs : s.Inv) : rel.Nodup :=
  (h.free_eq ▸ hs.chainNodup).of_append_left

/-- NEW takes the head of `REL`. -/
theorem Reduced.reuse (h : Reduced s (id :: rel) nxt) (hs : s.Inv) (hfree : s.free = id :: t.free)
    (hcap : t.cap = s.cap)
    (hactive : ∀ x, t.mem.active x = true ↔ x = id ∨ s.mem.active x = true) :
    Reduced t rel nxt := by
  have hid : id.toNat < nxt := h.rel_lt hs (.head _)
  have hnot : id ∉ rel := (List.nodup_cons.1 (h.rel_nodup hs)).1
  refine ⟨hcap ▸ h.range, ?_, fun x => ?_⟩
  · have hchain := hfree.symm.trans h.chain
    rw [hcap]
    exact (List.cons.inj hchain).2
  · rw [hactive, h.active, List.mem_cons]
    by_cases hx : x = id
    · subst x
      simp [hid, hnot]
    · simp [hx]

/-- NEW takes the least fresh identifier, from the chain or by growth. -/
theorem Reduced.fresh (h : Reduced s [] nxt) (hlt : nxt < 2 ^ 32)
    (hfree : t.free = freshChain (nxt + 1) t.cap) (hcap : nxt < t.cap)
    (hactive : ∀ x, t.mem.active x = true ↔ x = BitVec.ofNat 32 nxt ∨ s.mem.active x = true) :
    Reduced t [] (nxt + 1) := by
  have hid : (BitVec.ofNat 32 nxt).toNat = nxt := Nat.mod_eq_of_lt hlt
  refine ⟨⟨by omega, hcap⟩, hfree, fun x => ?_⟩
  have heq : x = BitVec.ofNat 32 nxt ↔ x.toNat = nxt := by
    rw [← BitVec.toNat_inj, hid]
  rw [hactive, h.active, heq, Nat.lt_succ_iff_lt_or_eq]
  simp only [List.not_mem_nil, not_false_eq_true, and_true]
  tauto

/-- DEL pushes on `REL`. -/
theorem Reduced.release (h : Reduced s rel nxt) (hne : id ≠ 0) (hfree : t.free = id :: s.free)
    (hcap : t.cap = s.cap)
    (hactive : ∀ x, t.mem.active x = true ↔ x ≠ id ∧ s.mem.active x = true) :
    Reduced t (id :: rel) nxt := by
  refine ⟨hcap ▸ h.range, by rw [hfree, hcap, h.chain, List.cons_append], fun x => ?_⟩
  rw [hactive, h.active, List.mem_cons, not_or]
  by_cases hx : x = id
  · subst x
    simpa using hne
  · simp [hx]

/-- A move of the table by an instruction that completes moves the reduced state as R37 says, and the
identifier a NEW returns is the one R37 names. -/
theorem Reduced.after_move {i : Instr} (h : Reduced s rel nxt) (hs : s.Inv) (hm : TableMove i s t)
    (hcompletes : ∀ k, t.status ≠ .faulted k) :
    Reduced t (reducedAfter i s rel nxt).1 (reducedAfter i s rel nxt).2 ∧
      ∀ b c, i = .new b c → t.reg b = rel.head?.getD (BitVec.ofNat 32 nxt) := by
  have hcaple := hs.tableInv.cap_le
  cases hm with
  | same htable hi =>
    obtain ⟨hn, hd⟩ := hi.resolve_right fun ⟨k, hk⟩ => hcompletes k hk
    rw [reducedAfter_other hn hd]
    exact ⟨h.of_sameTable htable, fun b c e => absurd e (hn b c)⟩
  | reuse b c id hi hfree hcap hreg _ hactive =>
    subst hi
    have hhead := hfree.symm.trans h.free_eq
    cases rel with
    | cons x rel =>
      obtain rfl : id = x := (List.cons.inj hhead).1
      refine ⟨h.reuse hs hfree hcap hactive, ?_⟩
      rintro _ _ ⟨⟩
      exact hreg
    | nil =>
      have hlt : nxt < s.cap := by
        by_contra hge
        rw [freshChain_eq_nil_iff.2 (by omega)] at hhead
        exact List.cons_ne_nil _ _ hhead
      rw [List.nil_append, freshChain_cons hlt] at hhead
      obtain ⟨rfl, htail⟩ := List.cons.inj hhead
      refine ⟨h.fresh (by omega) (hcap ▸ htail) (by omega) hactive, ?_⟩
      rintro _ _ ⟨⟩
      exact hreg
  | grow b c hi hempty hlt hfree hcap hreg _ hactive =>
    subst hi
    obtain ⟨rfl, rfl⟩ := h.free_eq_nil_iff.1 hempty
    have hpos := h.range.1
    refine ⟨h.fresh hlt (by rw [hfree, hcap, newSlots_eq_freshChain]) (by omega) hactive, ?_⟩
    rintro _ _ ⟨⟩
    exact hreg
  | release c hi hne _ hfree hcap _ hactive =>
    subst hi
    refine ⟨h.release hne hfree hcap hactive, ?_⟩
    rintro _ _ ⟨⟩

/-- An instruction that faults leaves the reduced state as it was. -/
theorem Reduced.after_fault {i : Instr} {k : Fault} (h : Reduced s rel nxt) (hm : TableMove i s t)
    (hrun : s.status = .running) (hfault : t.status = .faulted k) : Reduced t rel nxt := by
  have hne : t.status ≠ s.status := by simp [hfault, hrun]
  cases hm with
  | same htable _ => exact h.of_sameTable htable
  | reuse _ _ _ _ _ _ _ hstatus => exact absurd hstatus hne
  | grow _ _ _ _ _ _ _ _ hstatus => exact absurd hstatus hne
  | release _ _ _ _ _ _ hstatus => exact absurd hstatus hne

/-- NEW is alloc-exhausted exactly when no identifier is left or the store has no room (R173). -/
theorem new_exhausted_iff {b c : RegId} (hrun : s.status = .running)
    (h : exec (.new b c) s = .next t) : t.status = .faulted .allocExhausted ↔
      (s.free = [] ∧ 2 ^ 32 ≤ s.cap) ∨ ExceedsStore s (s.mem.used + (s.reg c).toNat) := by
  rcases execNew_cases b c s with ⟨id, rest, hf, hs, e⟩ | ⟨hf, hc, hs, e⟩ | ⟨hx, e⟩ <;>
    cases e.symm.trans h
  · exact iff_of_false (by simp [hrun]) (not_or.2 ⟨by simp [hf], (s.fits_iff _).1 hs⟩)
  · exact iff_of_false (by simp [hrun])
      (not_or.2 ⟨fun hfull => absurd hc hfull.2.not_gt, (s.fits_iff _).1 hs⟩)
  · exact iff_of_true rfl hx

end

/-- Settles O48: the moves of the array table are the moves of the reduced state. -/
theorem reducedStateSimulatesTheChain : Obligations.ReducedStateSimulatesTheChain := by
  refine ⟨fun i s t rel nxt hs h hrun hexec => ?_, fun s rel nxt hs h => h.exhausted_iff hs⟩
  have hm := (exec_ran hexec).tableMove
  refine ⟨h.after_move hs hm, fun k => h.after_fault hm hrun, ?_⟩
  rintro b c rfl
  rw [← h.exhausted_iff hs]
  exact new_exhausted_iff hrun hexec

end Sys2Proof.Machine

/-! SUPPORT. The frame of an instruction and of the fetch: registers, pc, output and input (O26, O28, O29,
O30). -/

namespace Sys2Proof.Machine

/-! ### The frame of an instruction: registers, pc and streams -/

section
variable {i : Instr} {s t : State}

/-- A register-only write goes to the destination R21 gives. -/
theorem WritesValue.destReg {a : RegId} {v : Word} (h : WritesValue i s a v) :
    destReg i = some a := by
  cases h <;> rfl

/-- An instruction leaves every register but its destination as it was (R21). -/
theorem Ran.reg_eq (h : Ran i s t) {r : RegId} (hr : destReg i ≠ some r) : t.reg r = s.reg r := by
  have other : ∀ {u : State} {a : RegId} {v : Word}, destReg i = some a →
      (u.setReg a v).reg r = u.reg r :=
    fun ha => State.setReg_reg_other _ _ fun e => hr (e ▸ ha)
  cases h with
  | write hw => exact other hw.destReg
  | newReuse _ _ => exact other rfl
  | newGrow _ _ _ => exact other rfl
  | inpByte _ => exact other rfl
  | inpEnd _ _ => exact other rfl
  | _ => rfl

/-- An instruction holds, goes on to the next word, or is a PRG that jumps and leaves the status as it
was (R194, R203). -/
theorem Ran.pc_cases (h : Ran i s t) :
    Holds i s ∨ t.pc = s.pc + 1 ∨ (∃ b c, i = .prg b c) ∧ t.status = s.status := by
  cases h with
  | hold hh => exact .inl hh
  | @jump b c _ _ => exact .inr (.inr ⟨⟨b, c, rfl⟩, rfl⟩)
  | @install b c _ _ _ _ _ => exact .inr (.inr ⟨⟨b, c, rfl⟩, rfl⟩)
  | _ => exact .inr (.inl rfl)

/-- The byte OUT emits is the value of its register. -/
theorem lowByte_toNat {v : Word} (h : v.toNat ≤ 255) : (lowByte v).toNat = v.toNat := by
  rw [lowByte, BitVec.toNat_setWidth]
  omega

/-- INP does not change the number of a byte. -/
theorem byteWord_toNat (b : Byte) : (byteWord b).toNat = b.toNat := by
  have := b.isLt
  rw [byteWord, BitVec.toNat_setWidth]
  omega

/-- An instruction emits nothing, or it is an OUT that appends the byte of its register (R192). -/
theorem Ran.outs_cases (h : Ran i s t) : t.outs = s.outs ∨
    ∃ c b, i = .out c ∧ b.toNat = (s.reg c).toNat ∧ t.outs = s.outs ++ [b] := by
  cases h with
  | @out c _ hb _ => exact .inr ⟨c, lowByte (s.reg c), rfl, lowByte_toNat hb, rfl⟩
  | _ => exact .inl rfl

/-- An instruction reads no input, or it is an INP that takes the first byte (R193). -/
theorem Ran.input_cases (h : Ran i s t) : t.input = s.input ∨
    ∃ c b, i = .inp c ∧ t.input.ended = s.input.ended ∧
      s.input.pending = b :: t.input.pending ∧ (t.reg c).toNat = b.toNat := by
  cases h with
  | @inpByte c _ b rest hp =>
    exact .inr ⟨c, b, rfl, rfl, hp, by rw [State.setReg_reg_self, byteWord_toNat]⟩
  | _ => exact .inl rfl

/-- The increment of a pc inside the image does not wrap: a length is a word (R22). -/
theorem State.pc_succ_toNat (h : s.pc.toNat < s.mem.image.length.toNat) :
    (s.pc + 1).toNat = s.pc.toNat + 1 := by
  have := s.mem.image.length.isLt
  have hone : (1 : Word).toNat = 1 := rfl
  rw [BitVec.toNat_add, hone, Nat.mod_eq_of_lt (by omega)]

/-- The fetch answers the word of the image at a pc inside it (R111). -/
theorem fetch_eq_some {w : Word} (h : fetch s = some w) :
    s.pc.toNat < s.mem.image.length.toNat ∧ s.mem.image.word s.pc.toNat = w := by
  simpa [fetch] using h

end

/-- Settles O26: the frame of the instruction executed. -/
theorem registersChangeOnlyAtTheDestination : Obligations.RegistersChangeOnlyAtTheDestination := by
  intro s t r h hne
  rcases step_ran h with ⟨hexec, _, hran⟩ | ⟨_, _, rfl⟩ | ⟨_, rfl⟩
  · exact ⟨hexec, by_contra fun hr => hne (hran.reg_eq hr)⟩
  · exact absurd rfl hne
  · exact absurd rfl hne

/-- Settles O28: a pc below the length of the image is below 2^32 - 1. -/
theorem fetchIncrementNeverWraps : Obligations.FetchIncrementNeverWraps := by
  constructor
  · intro s w h
    obtain ⟨hpc, rfl⟩ := fetch_eq_some h
    exact ⟨Memory.read_inside s.mem.find_zero hpc, State.pc_succ_toNat hpc⟩
  · intro s t hexec h hhold hgoes
    rcases step_ran h with ⟨_, _, hran⟩ | ⟨_, hout, _⟩ | ⟨hended, _⟩
    · rcases hran.pc_cases with hh | hpc | ⟨⟨b, c, hprg⟩, hstatus⟩
      · exact absurd hh hhold
      · rw [hpc, State.pc_succ_toNat hexec.2]
      · rcases hgoes with hnot | ⟨k, hk⟩
        · exact absurd hprg (hnot b c)
        · simp [hk, hexec.1] at hstatus
    · exact absurd hexec.2 hout.not_gt
    · exact absurd hexec.1 hended

/-- Settles O29: of the instructions only OUT changes the output, and a step that executes none
changes at most the status. -/
theorem outputGrowsOnlyByOut : Obligations.OutputGrowsOnlyByOut := by
  intro s t h
  rcases step_ran h with ⟨hexec, _, hran⟩ | ⟨_, _, rfl⟩ | ⟨_, rfl⟩
  · exact hran.outs_cases.imp_right fun ⟨c, b, hout⟩ => ⟨c, b, hexec, hout⟩
  · exact .inl rfl
  · exact .inl rfl

/-- Settles O30: of the instructions only INP changes the input, and a step that executes none changes
at most the status. -/
theorem inputIsReadOnlyByInp : Obligations.InputIsReadOnlyByInp := by
  intro s t h
  rcases step_ran h with ⟨hexec, _, hran⟩ | ⟨_, _, rfl⟩ | ⟨_, rfl⟩
  · exact hran.input_cases.imp_right fun ⟨c, b, hinp⟩ => ⟨c, b, hexec, hinp⟩
  · exact .inl rfl
  · exact .inl rfl

end Sys2Proof.Machine

/-! SUPPORT. Reset and load meet the invariant and the initial reduced state (O44, O45, O47). -/

namespace Sys2Proof.Machine

/-- What a load answers: the reset state with a canonical image that fits the store, no other array, and
the host's input (R250, R252, R253). -/
theorem State.boot_eq_some {limit : Config.StorageLimit} {bytes : List Byte} {inp : Input} {s : State}
    (h : State.boot limit bytes inp = some s) :
    ∃ d : Descriptor, d.wf ∧ limitAllows limit d.length.toNat = true ∧
      s = { State.reset with mem := { image := d, arrays := [] }, input := inp, memWords := limit } := by
  obtain ⟨d, hd, rfl⟩ := Option.map_eq_some_iff.1 h
  simp only [loadImage, Option.ite_none_right_eq_some, Option.some.injEq] at hd
  obtain ⟨⟨hlen, hfits⟩, rfl⟩ := hd
  have hlt : (wordsOfBytes bytes).length < 2 ^ 32 := Nat.lt_of_le_pred (by decide) hlen
  refine ⟨_, Descriptor.ofWords_wf hlt, ?_, rfl⟩
  rwa [Descriptor.ofWords, BitVec.toNat_ofNat, Nat.mod_eq_of_lt hlt]

/-- The reset state is the load of the empty program (log entry 7). -/
theorem State.boot_nil :
    State.boot .unbounded [] { pending := [], ended := false } = some State.reset := rfl

/-- With an empty table only identifier 0 is active. -/
theorem Memory.active_of_no_arrays {m : Memory} (h : m.arrays = []) (x : Word) :
    m.active x = true ↔ x = 0 := by
  simp [Memory.active, Memory.find, h, KeyMap.get, apply_ite]

/-- The table at reset: nothing on the chain, capacity 1, only identifier 0 active. -/
theorem TableInv.initial : TableInv [] Config.resetCapacity fun x => x = 0 := by
  refine ⟨List.nodup_nil, by simp, by simp, fun x h0 hlt => absurd ?_ h0, ?_, 0, by decide, rfl⟩
  · exact BitVec.eq_of_toNat_eq (Nat.lt_one_iff.1 hlt)
  · rintro x rfl
    decide

theorem State.boot_inv {limit : Config.StorageLimit} {bytes : List Byte} {inp : Input} {s : State}
    (h : State.boot limit bytes inp = some s) : s.Inv := by
  obtain ⟨d, hd, hfits, rfl⟩ := State.boot_eq_some h
  refine .of_parts ⟨hd, List.Pairwise.nil, by simp⟩ ?_ hfits
  show TableInv [] Config.resetCapacity fun x => Memory.active { image := d, arrays := [] } x = true
  simpa only [Memory.active_of_no_arrays] using TableInv.initial

theorem State.boot_reduced {limit : Config.StorageLimit} {bytes : List Byte} {inp : Input}
    {s : State} (h : State.boot limit bytes inp = some s) : Reduced s [] 1 := by
  obtain ⟨d, -, -, rfl⟩ := State.boot_eq_some h
  refine ⟨⟨le_rfl, le_rfl⟩, rfl, fun x => ?_⟩
  rw [Memory.active_of_no_arrays rfl]
  refine (or_iff_left_of_imp fun ⟨hlt, _⟩ => ?_).symm
  exact BitVec.eq_of_toNat_eq (Nat.lt_one_iff.1 hlt)

/-- Settles O45: a loaded image is canonical and fits the store, and the table is the initial one. -/
theorem invariantHoldsAfterLoad : Obligations.InvariantHoldsAfterLoad :=
  fun _ _ _ _ => State.boot_inv

/-- Settles O44: the reset state is the load of the empty program. -/
theorem invariantHoldsAtReset : Obligations.InvariantHoldsAtReset := State.boot_inv State.boot_nil

/-- Settles O47: after every load nothing is on the chain, the capacity is 1 and only identifier 0 is
active; the reset state is such a load. -/
theorem reducedStateAfterLoad : Obligations.ReducedStateAfterLoad :=
  ⟨State.boot_reduced State.boot_nil, fun _ _ _ _ => State.boot_reduced⟩

end Sys2Proof.Machine

/-! SUPPORT. Canonical memories are determined by what is read (O43). -/

namespace Sys2Proof.Machine

/-- Two maps in the canonical form that answer the same at every key are the same list. -/
theorem KeyMap.ext_of_get {α : Type} {m n : List (Nat × α)} (hm : KeyMap.Rising m)
    (hn : KeyMap.Rising n) (h : ∀ k, KeyMap.get m k = KeyMap.get n k) : m = n := by
  have hirrefl : Std.Irrefl fun p q : Nat × α => p.1 < q.1 := ⟨fun p => lt_irrefl p.1⟩
  have hantisymm : Std.Antisymm fun p q : Nat × α => p.1 < q.1 :=
    ⟨fun _ _ hpq hqp => absurd hpq hqp.asymm⟩
  refine List.Pairwise.eq_of_mem_iff (List.pairwise_map.1 hm) (List.pairwise_map.1 hn) fun p => ?_
  exact ⟨fun hp => KeyMap.mem_of_get (h p.1 ▸ KeyMap.get_of_mem hm hp),
    fun hp => KeyMap.mem_of_get ((h p.1).symm ▸ KeyMap.get_of_mem hn hp)⟩

/-- A canonical array lists an element exactly when it is inside and not 0. -/
theorem Descriptor.get_storage_eq_some_iff {d : Descriptor} (hd : d.wf) (k : Nat) (v : Word) :
    KeyMap.get d.storage k = some v ↔ k < d.length.toNat ∧ v ≠ 0 ∧ d.word k = v := by
  unfold Descriptor.word
  constructor
  · intro h
    obtain ⟨hk, hv⟩ := hd.2 _ (KeyMap.mem_of_get h)
    exact ⟨hk, hv, by rw [h]; rfl⟩
  · rintro ⟨-, hv, rfl⟩
    cases h : KeyMap.get d.storage k with
    | none => simp [h] at hv
    | some u => rfl

/-- Two canonical arrays of one length with the same words are the same data. -/
theorem Descriptor.ext_of_word {d e : Descriptor} (hd : d.wf) (he : e.wf)
    (hlen : d.length = e.length) (hword : ∀ k < d.length.toNat, d.word k = e.word k) : d = e := by
  have hget : ∀ k, KeyMap.get d.storage k = KeyMap.get e.storage k := by
    intro k
    ext v
    rw [Descriptor.get_storage_eq_some_iff hd, Descriptor.get_storage_eq_some_iff he, ← hlen]
    exact and_congr_right fun hk => by rw [hword k hk]
  cases d
  cases e
  exact congrArg₂ _ hlen (KeyMap.ext_of_get hd.1 he.1 hget)

section
variable {m n : Memory}

/-- Where lengths and reads agree, so do the arrays found. -/
theorem Memory.find_eq_of_read (hm : m.wf) (hn : n.wf) {id : Word} (hlen : m.len id = n.len id)
    (hread : ∀ i, m.read id i = n.read id i) : m.find id = n.find id := by
  unfold Memory.len at hlen
  cases hd : m.find id with
  | none =>
    rw [hd, Option.map_none, eq_comm, Option.map_eq_none_iff] at hlen
    exact hlen.symm
  | some d =>
    rw [hd, Option.map_some, eq_comm, Option.map_eq_some_iff] at hlen
    obtain ⟨e, he, hel⟩ := hlen
    rw [he]
    refine congrArg some
      (Descriptor.ext_of_word (Memory.find_wf hm hd) (Memory.find_wf hn he) hel.symm fun k hk => ?_)
    have hk32 : (BitVec.ofNat 32 k).toNat = k := Nat.mod_eq_of_lt (hk.trans d.length.isLt)
    have hword := hread (BitVec.ofNat 32 k)
    rw [Memory.read_inside hd (by omega), Memory.read_inside he (by rw [hel]; omega), hk32] at hword
    exact Except.ok.inj hword

/-- In a canonical memory the table holds nothing at 0 and nothing beyond the identifiers. -/
theorem Memory.get_arrays_out_of_range (hm : m.wf) {k : Nat} (hk : ¬ (0 < k ∧ k < 2 ^ 32)) :
    KeyMap.get m.arrays k = none := by
  by_contra h
  obtain ⟨d, hd⟩ := Option.ne_none_iff_exists'.1 h
  obtain ⟨h0, hlt, -⟩ := hm.2.2 _ (KeyMap.mem_of_get hd)
  exact hk ⟨h0, hlt⟩

/-- Inside the range of identifiers other than 0 the table holds what `find` answers. -/
theorem Memory.find_ofNat (m : Memory) {k : Nat} (h0 : 0 < k) (hlt : k < 2 ^ 32) :
    m.find (BitVec.ofNat 32 k) = KeyMap.get m.arrays k := by
  have hk : (BitVec.ofNat 32 k).toNat = k := Nat.mod_eq_of_lt hlt
  have hne : BitVec.ofNat 32 k ≠ 0 := by
    intro h
    rw [h] at hk
    exact h0.ne hk
  rw [Memory.find, if_neg hne, hk]

/-- Two canonical memories in which `find` answers the same are the same data. -/
theorem Memory.ext_of_find (hm : m.wf) (hn : n.wf) (h : ∀ id, m.find id = n.find id) : m = n := by
  have hget : ∀ k, KeyMap.get m.arrays k = KeyMap.get n.arrays k := by
    intro k
    by_cases hk : 0 < k ∧ k < 2 ^ 32
    · rw [← m.find_ofNat hk.1 hk.2, h, n.find_ofNat hk.1 hk.2]
    · rw [Memory.get_arrays_out_of_range hm hk, Memory.get_arrays_out_of_range hn hk]
  have himage : m.image = n.image := Option.some.inj (h 0)
  cases m
  cases n
  exact congrArg₂ _ himage (KeyMap.ext_of_get hm.2.1 hn.2.1 hget)

end

/-- Settles O43: lengths and words decide what `find` answers, and that decides the memory. -/
theorem equalMemoriesAreEqualData : Obligations.EqualMemoriesAreEqualData :=
  fun _ _ hm hn hlen hread =>
    Memory.ext_of_find hm hn fun id => Memory.find_eq_of_read hm hn (hlen id) (hread id)

end Sys2Proof.Machine

/-! SUPPORT. What a step does to one array that is active before and after it, and the independence of the
program from the array it was copied from (O33, O34, O37, O38, O42). -/

namespace Sys2Proof.Machine

/-! ### One array -/

theorem Memory.len_eq_some_iff {m : Memory} {id n : Word} :
    m.len id = some n ↔ ∃ d, m.find id = some d ∧ d.length = n :=
  Option.map_eq_some_iff

theorem Memory.read_eq_ok_iff {m : Memory} {id i v : Word} :
    m.read id i = .ok v ↔
      ∃ d, m.find id = some d ∧ i.toNat < d.length.toNat ∧ d.word i.toNat = v := by
  constructor
  · intro h
    rcases m.read_cases id i with ⟨d, hd, hi, e⟩ | ⟨-, e⟩
    · exact ⟨d, hd, hi, Except.ok.inj (e.symm.trans h)⟩
    · cases e.symm.trans h
  · rintro ⟨d, hd, hi, rfl⟩
    exact Memory.read_inside hd hi

/-- Two identifiers, in one memory or in two, that refer to equal arrays have the same length and the
same words. -/
theorem Memory.sameArray_of_find {m m' : Memory} {id id' : Word} (h : m'.find id' = m.find id) :
    m'.len id' = m.len id ∧ ∀ i, m'.read id' i = m.read id i :=
  ⟨by rw [Memory.len, Memory.len, h], fun i => by simp only [Memory.read, Memory.lookup, h]⟩

@[simp] theorem Memory.bind_zero (m : Memory) (d : Descriptor) : m.bind 0 d = m.setImage d :=
  if_pos rfl

/-! ### What an instruction and a step do to one array -/

/-- The two ways an instruction can change an array `d` that stays active: STA stores R[C] in it
(R54, R141), or it is the image and PRG replaces it (R63, R201). -/
def ArrayChange (i : Instr) (s : State) (id : Word) (d e : Descriptor) : Prop :=
  (∃ a b c, i = .sta a b c ∧ s.reg a = id ∧ e = d.store (s.reg b).toNat (s.reg c)) ∨
  (id = 0 ∧ ∃ b c, i = .prg b c ∧ s.reg b ≠ 0)

section
variable {s t : State} {id : Word} {d e : Descriptor}

/-- Binding an identifier that was not active changes no active array. -/
theorem Memory.bind_find_of_active {m : Memory} {new : Word} {z : Descriptor}
    (hnew : m.active new = false) (hd : m.find id = some d) : (m.bind new z).find id = some d := by
  have hne : id ≠ new := by
    rintro rfl
    simp [Memory.active_of_find hd] at hnew
  rw [Memory.bind_find_other m z hne, hd]

/-- An array active before and after an instruction is as it was, or STA or PRG changed it: NEW binds
only identifiers that were not active, and DEL only removes one. -/
theorem Ran.array_cases {i : Instr} (h : Ran i s t) (hs : s.Inv) (hd : s.mem.find id = some d)
    (he : t.mem.find id = some e) : e = d ∨ ArrayChange i s id d e := by
  have same {e' : Descriptor} (h' : t.mem.find id = some e') : e = e' :=
    Option.some.inj (he.symm.trans h')
  cases h with
  | @store a b c _ d' hd' _ =>
    by_cases hid : id = s.reg a
    · subst hid
      cases hd'.symm.trans hd
      exact .inr (.inl ⟨a, b, c, rfl, rfl, same (Memory.bind_find_self _ _ _)⟩)
    · exact .inl (same ((Memory.bind_find_other _ _ hid).trans hd))
  | @newReuse b c _ new rest hf _ =>
    exact .inl (same (Memory.bind_find_of_active (hs.chainInactive new (hf ▸ .head _)) hd))
  | newGrow _ hc _ => exact .inl (same (Memory.bind_find_of_active (hs.cap_inactive hc) hd))
  | @del c _ h0 _ =>
    have hid : id ≠ s.reg c := by
      rintro rfl
      cases (Memory.unbind_find_self s.mem h0).symm.trans he
    exact .inl (same ((Memory.unbind_find_other _ hid).trans hd))
  | @install b c _ _ h0 _ _ =>
    by_cases hid : id = 0
    · exact .inr (.inr ⟨hid, b, c, rfl, h0⟩)
    · exact .inl (same ((Memory.setImage_find_other _ _ hid).trans hd))
  | _ => exact .inl (same hd)

/-- The same of a step: the change is by the instruction it executed. -/
theorem step_array_cases (hs : s.Inv) (h : step s = .next t) (hd : s.mem.find id = some d)
    (he : t.mem.find id = some e) :
    e = d ∨ (s.Executes ∧ ArrayChange s.nextInstr s id d e) := by
  rcases step_ran h with ⟨hexec, _, hran⟩ | ⟨_, _, rfl⟩ | ⟨_, rfl⟩
  · exact (hran.array_cases hs hd he).imp_right fun hc => ⟨hexec, hc⟩
  · exact .inl (Option.some.inj (he.symm.trans hd))
  · exact .inl (Option.some.inj (he.symm.trans hd))

/-- A step of a running core with the pc inside the image executes the next instruction (R110). -/
theorem step_of_executes (h : s.Executes) : step s = exec s.nextInstr s := by
  obtain ⟨hrun, hpc⟩ := h
  rcases step_cases s with ⟨_, _, e⟩ | ⟨_, hout, _⟩ | ⟨hended, _⟩
  · exact e
  · exact absurd hpc hout.not_gt
  · exact absurd hrun hended

/-! ### STA, DEL and PRG and the arrays they do not name -/

/-- STA, completed or faulting, leaves every array but the one it names (R54). -/
theorem exec_sta_find_other (a b c : RegId) (hid : id ≠ s.reg a) :
    ∃ t, exec (.sta a b c) s = .next t ∧ t.mem.find id = s.mem.find id := by
  rcases execSta_cases a b c s with ⟨d, _, _, e⟩ | ⟨_, e⟩
  · exact ⟨_, e, Memory.bind_find_other _ _ hid⟩
  · exact ⟨_, e, rfl⟩

/-- STA to identifier 0 inside the image stores in the image and does not end the run (R62, R141). -/
theorem exec_sta_image (a b c : RegId) (ha : s.reg a = 0)
    (hb : (s.reg b).toNat < s.mem.image.length.toNat) :
    ∃ t, exec (.sta a b c) s = .next t ∧
      t.mem.image = s.mem.image.store (s.reg b).toNat (s.reg c) ∧ t.status = s.status := by
  rcases execSta_cases a b c s with ⟨d, hd, _, e⟩ | ⟨hout, _⟩
  · rw [ha, Memory.find_zero] at hd
    cases hd
    rw [ha, Memory.bind_zero] at e
    exact ⟨_, e, rfl, rfl⟩
  · exact absurd hb (hout _ (ha ▸ Memory.find_zero _)).not_gt

/-- DEL of an active identifier other than 0 removes it and leaves every other array (R171). -/
theorem exec_del_find (c : RegId) (h0 : s.reg c ≠ 0) (hd : s.mem.find (s.reg c) = some d) :
    ∃ t, exec (.del c) s = .next t ∧ t.mem.active (s.reg c) = false ∧
      ∀ id, id ≠ s.reg c → t.mem.find id = s.mem.find id := by
  rcases execDel_cases c s with ⟨_, _, e⟩ | ⟨h | h, _⟩
  · refine ⟨_, e, ?_, fun id hid => Memory.unbind_find_other _ hid⟩
    simp [Memory.active, Memory.unbind_find_self s.mem h0]
  · exact absurd h h0
  · simp [Memory.active_of_find hd] at h

/-- PRG of an active identifier other than 0, with room for the copy, binds identifier 0 to the same
array and leaves every other identifier (R201). -/
theorem exec_prg_find (b c : RegId) (h0 : s.reg b ≠ 0) (hd : s.mem.find (s.reg b) = some d)
    (hroom : ¬ ExceedsStore s (s.mem.used + d.length.toNat - s.mem.image.length.toNat)) :
    ∃ t, exec (.prg b c) s = .next t ∧ t.mem.find 0 = some d ∧
      ∀ id, id ≠ 0 → t.mem.find id = s.mem.find id := by
  rcases execPrg_cases b c s with ⟨h, _⟩ | ⟨_, d', hd', _, e⟩ | ⟨_, hnone, _⟩ | ⟨_, d', hd', hx, _⟩
  · exact absurd h h0
  · cases hd'.symm.trans hd
    exact ⟨_, e, rfl, fun id hid => Memory.setImage_find_other _ _ hid⟩
  · cases hnone.symm.trans hd
  · cases hd'.symm.trans hd
    exact absurd hx hroom

end

/-! ### The obligations -/

/-- Settles O42: each way an instruction can end keeps the canonical form. -/
theorem memoryStaysCanonical : Obligations.MemoryStaysCanonical :=
  fun _ _ _ hm h => (exec_ran h).mem_wf hm

/-- Settles O33: a store keeps the length, so only PRG is left. -/
theorem lengthsNeverChange : Obligations.LengthsNeverChange := by
  intro s t id n m hs h hn hm
  obtain ⟨d, hd, rfl⟩ := Memory.len_eq_some_iff.1 hn
  obtain ⟨e, he, rfl⟩ := Memory.len_eq_some_iff.1 hm
  rcases step_array_cases hs h hd he with rfl | ⟨hexec, hsta | ⟨h0, b, c, hprg, _⟩⟩
  · exact .inl rfl
  · obtain ⟨a, b, c, _, _, rfl⟩ := hsta
    exact .inl (Descriptor.store_length _ _ _)
  · exact .inr ⟨h0, b, c, hexec, hprg⟩

/-- Settles O34: a store changes the word at its index alone. -/
theorem elementsChangeOnlyByStaAndPrg : Obligations.ElementsChangeOnlyByStaAndPrg := by
  intro s t id i v u hs h hv hu hne
  obtain ⟨d, hd, _, rfl⟩ := Memory.read_eq_ok_iff.1 hv
  obtain ⟨e, he, _, rfl⟩ := Memory.read_eq_ok_iff.1 hu
  rcases step_array_cases hs h hd he with rfl | ⟨hexec, hsta | hprg⟩
  · exact absurd rfl hne
  · obtain ⟨a, b, c, hi, ha, rfl⟩ := hsta
    have hb : i.toNat = (s.reg b).toNat :=
      by_contra fun hother => hne (d.store_word_other _ hother)
    refine ⟨hexec, .inl ⟨a, b, c, hi, ha, (BitVec.eq_of_toNat_eq hb).symm, ?_⟩⟩
    rw [hb, Descriptor.store_word_self]
  · exact ⟨hexec, .inr hprg⟩

/-- Settles O37: the store goes to the image, which is what the next fetch reads. -/
theorem storeToTheProgramIsFetched : Obligations.StoreToTheProgramIsFetched := by
  intro a b c s hrun ha hb
  obtain ⟨t, ht, himage, hstatus⟩ := exec_sta_image a b c ha hb
  have hword : t.mem.image.word (s.reg b).toNat = s.reg c := by
    rw [himage, Descriptor.store_word_self]
  have hlen : t.mem.image.length = s.mem.image.length := by rw [himage, Descriptor.store_length]
  refine ⟨t, ht, hword, hlen, fun hpc => ?_⟩
  have hexec : t.Executes := ⟨hstatus.trans hrun, by rwa [hpc, hlen]⟩
  rw [step_of_executes hexec, State.nextInstr, hpc, hword]

/-- Settles O38: after the PRG both identifiers refer to the array, and a store to one of them or a DEL
leaves what the other refers to. -/
theorem theProgramCopyIsIndependent : Obligations.TheProgramCopyIsIndependent := by
  intro b c s n h0 hn hroom
  obtain ⟨d, hd, rfl⟩ := Memory.len_eq_some_iff.1 hn
  obtain ⟨t, ht, hcopy, hrest⟩ := exec_prg_find b c h0 hd hroom
  have hsource : t.mem.find (s.reg b) = some d := (hrest _ h0).trans hd
  have unchanged {u : State} {id : Word} (hu : u.mem.find id = some d) :
      u.mem.len id = some d.length ∧ ∀ i, u.mem.read id i = s.mem.read (s.reg b) i :=
    hn ▸ Memory.sameArray_of_find (hu.trans hd.symm)
  refine ⟨t, ht, fun x y z hx => ?_, fun x hx => ?_, fun x y z hx => ?_⟩
  · obtain ⟨u, hu, hfind⟩ := exec_sta_find_other (s := t) x y z (hx ▸ h0.symm)
    exact ⟨u, hu, unchanged (hfind.trans hcopy)⟩
  · obtain ⟨u, hu, hinactive, hfind⟩ := exec_del_find x (hx ▸ h0) (hx ▸ hsource)
    exact ⟨u, hu, hx ▸ hinactive, unchanged ((hfind 0 (hx ▸ h0.symm)).trans hcopy)⟩
  · obtain ⟨u, hu, hfind⟩ := exec_sta_find_other (s := t) x y z (hx ▸ h0)
    exact ⟨u, hu, unchanged (hfind.trans hsource)⟩

end Sys2Proof.Machine

/-! SUPPORT. The round trips of the decoder and the encoder: re-encoding a decoded word clears exactly the
bits its opcode does not use, which says what the decoder looks at and which words are canonical (O1, O2, O3,
O5). -/

namespace Sys2Proof

/-! ### The fields of the encoder's words -/

section
variable {op : Nat} (h : op < 16) (a b c : RegId)
include h

theorem opcodeOf_encodeR : opcodeOf (encodeR op a b c) = op := by
  rw [opcodeOf_eq, encodeR_toNat h]
  omega

theorem fieldA_encodeR : fieldA (encodeR op a b c) = a := by
  apply Fin.ext
  rw [fieldA_val, encodeR_toNat h]
  omega

theorem fieldB_encodeR : fieldB (encodeR op a b c) = b := by
  apply Fin.ext
  rw [fieldB_val, encodeR_toNat h]
  omega

theorem fieldC_encodeR : fieldC (encodeR op a b c) = c := by
  apply Fin.ext
  rw [fieldC_val, encodeR_toNat h]
  omega

end

section
variable (r : RegId) (imm : Imm25)

theorem opcodeOf_encodeI : opcodeOf (encodeI r imm) = 13 := (Laws.EncodedWord.ldi r imm).1

theorem fieldLdiReg_encodeI : fieldLdiReg (encodeI r imm) = r := by
  have := imm.isLt
  apply Fin.ext
  rw [fieldLdiReg_val, encodeI_toNat]
  omega

theorem fieldLdiImm_encodeI : fieldLdiImm (encodeI r imm) = imm := by
  have := imm.isLt
  apply BitVec.eq_of_toNat_eq
  rw [fieldLdiImm_toNat, encodeI_toNat]
  omega

end

/-! ### The round trips (R95) -/

/-- The decoder reads back the opcode and the operands the encoder wrote. -/
theorem decode_encode (i : Instr) : decode (encode i) = i := by
  cases i with
  | ldi r imm =>
    simp only [encode, decode, opcodeOf_encodeI, fieldLdiReg_encodeI, fieldLdiImm_encodeI]
  | _ =>
    simp only [encode, decode, opcodeOf_encodeR, fieldA_encodeR, fieldB_encodeR, fieldC_encodeR,
      Nat.reduceLT]

theorem encode_injective : Function.Injective encode := Function.LeftInverse.injective decode_encode

/-- Re-encoding keeps the opcode and the operand bits, and clears the bits between them. -/
theorem encode_decode_toNat (w : Word) : (encode (decode w)).toNat =
    opcodeOf w * 2 ^ 28 + w.toNat % 2 ^ operandBits (opcodeOf w) := by
  have hlt := opcodeOf_lt w
  unfold decode
  split
  case h_14 h => -- LDI, the one opcode of format I
    simp only [encode, encodeI_toNat, fieldLdiReg_val, fieldLdiImm_toNat, h, operandBits]
    omega
  case h_16 h => -- the opcode that is left
    have h : opcodeOf w = 15 := by
      simp only [imp_false] at *
      omega
    simp only [encode, encodeR_toNat, h, operandBits, Nat.reduceLT, Fin.val_zero]
    omega
  all_goals
    rename_i h
    simp only [encode, encodeR_toNat, fieldA_val, fieldB_val, fieldC_val, h, operandBits,
      Nat.reduceLT, Fin.val_zero]
    omega

theorem operandBits_le (op : Nat) : operandBits op ≤ 28 := by
  unfold operandBits
  split <;> omega

/-- A word is its own canonical word exactly when its ignored bits are 0. -/
theorem encode_decode_eq_iff (w : Word) : encode (decode w) = w ↔ w.canonical = true := by
  have hmod : w.toNat % 2 ^ operandBits (opcodeOf w) =
      w.toNat % 2 ^ 28 % 2 ^ operandBits (opcodeOf w) :=
    (Nat.mod_mod_of_dvd _ (pow_dvd_pow 2 (operandBits_le _))).symm
  calc encode (decode w) = w
    _ ↔ (encode (decode w)).toNat = w.toNat := BitVec.toNat_inj.symm
    _ ↔ w.toNat % 2 ^ 28 % 2 ^ operandBits (opcodeOf w) = w.toNat % 2 ^ 28 := by
      rw [encode_decode_toNat, hmod, opcodeOf_eq]
      omega
    _ ↔ w.toNat % 2 ^ 28 < 2 ^ operandBits (opcodeOf w) :=
      Nat.mod_eq_iff_lt (by positivity)
    _ ↔ w.canonical = true := by rw [Word.canonical_iff, opcodeOf_eq]

theorem canonical_encode (i : Instr) : (encode i).canonical = true := by
  rw [← encode_decode_eq_iff, decode_encode]

/-- Settles O1: the two round trips. -/
theorem decodeInvertsEncode : Obligations.DecodeInvertsEncode :=
  ⟨fun i => ⟨decode_encode i, canonical_encode i⟩, encode_decode_eq_iff⟩

/-- Settles O2: the fields are the low bits of the word, and in format R the bits above them are ignored. -/
theorem wordIsMadeOfItsFields : Obligations.WordIsMadeOfItsFields := by
  constructor
  · intro w
    refine ⟨opcodeOf_lt w, w.toNat / 2 ^ 9 % 2 ^ 19, Nat.mod_lt _ (by decide), fun _ => ?_⟩
    rw [opcodeOf_eq, fieldA_val, fieldB_val, fieldC_val]
    omega
  · intro w h
    rw [opcodeOf_eq] at h
    rw [fieldLdiReg_val, fieldLdiImm_toNat]
    omega

/-! ### Which bits the decoder looks at (R84, R85) -/

/-- Two words of one opcode that agree on the low `k` bits decode alike, when the operands of the opcode
are among them: their canonical words are equal. -/
theorem decode_congr {w v : Word} {k : Nat} (ho : opcodeOf w = opcodeOf v)
    (hk : operandBits (opcodeOf w) ≤ k) (h : w.toNat ≡ v.toNat [MOD 2 ^ k]) :
    decode w = decode v := by
  apply encode_injective
  apply BitVec.eq_of_toNat_eq
  rw [encode_decode_toNat, encode_decode_toNat, ← ho, h.of_dvd (pow_dvd_pow 2 hk)]

theorem operandBits_le_nine {op : Nat} (h : op ≠ 13) : operandBits op ≤ 9 := by
  unfold operandBits
  split <;> omega

/-- Settles O3: each group of opcodes has its operands in the low bits named. -/
theorem unusedBitsDoNotMatter : Obligations.UnusedBitsDoNotMatter := by
  refine ⟨fun w v ho h => decode_congr ho (operandBits_le_nine h), fun w v ho h => decode_congr ho ?_,
    fun w v ho h => decode_congr ho ?_, fun w v ho h => decode_congr (k := 0) ho ?_ Nat.modEq_one⟩
  · rcases h with h | h <;> simp only [h, operandBits, le_refl]
  · rcases h with h | h | h <;> simp only [h, operandBits, le_refl]
  · rcases h with h | h | h <;> simp only [h, operandBits, le_refl]

/-- Settles O5: the decoder is run on each word. -/
theorem sampleWordsDecode : Obligations.SampleWordsDecode := by
  unfold Obligations.SampleWordsDecode
  decide

/-! ### Which words are illegal (R90) -/

theorem Instr.not_wellFormed_iff {i : Instr} :
    i.wellFormed = false ↔ i = .invalid14 ∨ i = .invalid15 := by
  cases i <;> simp [wellFormed, opcode]

theorem decode_not_wellFormed_iff (w : Word) :
    (decode w).wellFormed = false ↔ 0xE0000000 ≤ w.toNat := by
  rw [Instr.wellFormed, decode_opcode, opcodeOf_eq, decide_eq_false_iff_not]
  omega

end Sys2Proof

/-! SUPPORT. Executing an illegal word and the all-zero word (O4). -/

namespace Sys2Proof.Machine

theorem SameBesidesRegs.refl (s : State) : SameBesidesRegs s s :=
  ⟨fun _ => ⟨rfl, fun _ => rfl⟩, ⟨rfl, rfl⟩, ⟨rfl, rfl⟩, ⟨rfl, rfl⟩⟩

theorem SameBesidesRegs.advance (s : State) : SameBesidesRegs s s.advance := SameBesidesRegs.refl s

/-- The state an instruction answers when it raises a fault is the one R230 describes. -/
theorem faultTaken_advance (k : Fault) (s : State) :
    FaultTaken k s (s.advance.setStatus (.faulted k)) :=
  ⟨rfl, rfl, fun _ => rfl, SameBesidesRegs.refl s⟩

/-- Opcodes 14 and 15 take the fault in every state (R202). -/
theorem exec_of_not_wellFormed {i : Instr} (h : i.wellFormed = false) (s : State) :
    exec i s = .next (s.advance.setStatus (.faulted .invalidInstruction)) := by
  rcases Instr.not_wellFormed_iff.1 h with rfl | rfl <;> rfl

/-- Writing back the value a register holds changes nothing. -/
theorem State.setReg_reg (s : State) (r : RegId) : s.setReg r (s.reg r) = s := by
  simp [setReg, reg]

/-- A MOV of a register to itself changes nothing but the pc, whatever its condition is (R130). -/
theorem exec_mov_self (a c : RegId) (s : State) : exec (.mov a a c) s = .next s.advance := by
  have hback : s.advance.setReg a (s.reg a) = s.advance := s.advance.setReg_reg a
  rw [exec, execMov, hback, ite_self]

/-- Settles O4: the illegal words are those of opcodes 14 and 15, and the all-zero word is a MOV of R0 to
itself. -/
theorem illegalWordsAreTheTopTwoOpcodes : Obligations.IllegalWordsAreTheTopTwoOpcodes := by
  have hzero : decode 0 = .mov 0 0 0 := by decide
  refine ⟨decode_not_wellFormed_iff, fun w s hw => ?_, hzero, fun s => ?_, by decide⟩
  · exact ⟨_, exec_of_not_wellFormed ((decode_not_wellFormed_iff w).2 hw) s, faultTaken_advance _ s⟩
  · exact ⟨s.advance, by rw [hzero, exec_mov_self], rfl, rfl, fun _ => rfl, .advance s⟩

end Sys2Proof.Machine

/-! SUPPORT. The dispatch cycle: what a step answers by the status and the pc, that every meaning answers a
next state, and which statuses an instruction can leave (O21, O22, O25). -/

namespace Sys2Proof.Machine

/-! ### The step by status and pc -/

section
variable {s : State}

/-- The fetch of a running core with the pc past the image takes the fault and moves nothing (R111). -/
theorem step_of_pc_outside (hrun : s.status = .running)
    (hpc : s.mem.image.length.toNat ≤ s.pc.toNat) :
    step s = .next (s.setStatus (.faulted .pcOutOfBounds)) := by
  rcases step_cases s with ⟨_, hin, _⟩ | ⟨_, _, e⟩ | ⟨hended, _⟩
  · exact absurd hpc hin.not_ge
  · exact e
  · exact absurd hrun hended

/-- An ended run stays where it is (R29). -/
theorem step_of_ended (hended : s.status ≠ .running) : step s = .next s := by
  rcases step_cases s with ⟨hrun, _⟩ | ⟨hrun, _⟩ | ⟨_, e⟩
  · exact absurd hrun hended
  · exact absurd hrun hended
  · exact e

end

/-- Settles O21: the three clauses are the three cases of the step. -/
theorem stepRunsTheDecodedInstruction : Obligations.StepRunsTheDecodedInstruction :=
  ⟨fun _ hrun hpc => step_of_executes ⟨hrun, hpc⟩,
    fun s hrun hpc => ⟨_, step_of_pc_outside hrun hpc, rfl, rfl, fun _ => rfl, .refl s⟩,
    fun _ hended => step_of_ended hended⟩

/-! ### Every meaning answers a next state -/

/-- No instruction ends in a stop of the interface: what it computes, a fault it takes and a hold are all
next states (R116, R230). -/
theorem exec_next (i : Instr) (s : State) : ∃ t, exec i s = .next t := by
  cases i with
  | mov a b c => exact ⟨_, rfl⟩
  | ldi r imm => exact ⟨_, rfl⟩
  | lda a b c => rcases execLda_cases a b c s with ⟨_, _, _, e⟩ | ⟨_, e⟩ <;> exact ⟨_, e⟩
  | sta a b c => rcases execSta_cases a b c s with ⟨_, _, _, e⟩ | ⟨_, e⟩ <;> exact ⟨_, e⟩
  | add a b c => exact ⟨_, rfl⟩
  | mul a b c => exact ⟨_, rfl⟩
  | div a b c =>
    by_cases hc : s.reg c = 0
    · exact ⟨_, if_pos hc⟩
    · exact ⟨_, if_neg hc⟩
  | nan a b c => exact ⟨_, rfl⟩
  | hlt => exact ⟨_, rfl⟩
  | new b c =>
    rcases execNew_cases b c s with ⟨_, _, _, _, e⟩ | ⟨_, _, _, e⟩ | ⟨_, e⟩ <;> exact ⟨_, e⟩
  | del c => rcases execDel_cases c s with ⟨_, _, e⟩ | ⟨_, e⟩ <;> exact ⟨_, e⟩
  | out c => rcases execOut_cases c s with ⟨_, _, e⟩ | ⟨_, _, e⟩ | ⟨_, e⟩ <;> exact ⟨_, e⟩
  | inp c =>
    rcases execInp_cases c s with ⟨_, _, _, e⟩ | ⟨_, _, e⟩ | ⟨_, _, e⟩ <;> exact ⟨_, e⟩
  | prg b c =>
    rcases execPrg_cases b c s with ⟨_, e⟩ | ⟨_, _, _, _, e⟩ | ⟨_, _, e⟩ | ⟨_, _, _, _, e⟩ <;>
      exact ⟨_, e⟩
  | invalid14 => exact ⟨_, rfl⟩
  | invalid15 => exact ⟨_, rfl⟩

/-- Settles O22: a step executes an instruction, takes the fault of the fetch or stays in an ended run. -/
theorem everyStepAnswersANextState : Obligations.EveryStepAnswersANextState := by
  intro s
  rcases step_cases s with ⟨_, _, e⟩ | ⟨_, _, e⟩ | ⟨_, e⟩
  · exact e ▸ exec_next _ s
  · exact ⟨_, e⟩
  · exact ⟨_, e⟩

/-! ### How a run ends -/

/-- An instruction leaves the status as it was, or it is HLT and halts, or it takes a fault (R29). -/
theorem Ran.status_cases {i : Instr} {s t : State} (h : Ran i s t) :
    t.status = s.status ∨ (i = .hlt ∧ t.status = .halted) ∨ ∃ k, t.status = .faulted k := by
  cases h with
  | hlt => exact .inr (.inl ⟨rfl, rfl⟩)
  | @fault _ _ k _ => exact .inr (.inr ⟨k, rfl⟩)
  | _ => exact .inl rfl

/-- Settles O25: the statuses the executed instruction can leave, the fault of the fetch and the ended
run. -/
theorem runsEndOnlyByHltOrFault : Obligations.RunsEndOnlyByHltOrFault := by
  refine ⟨fun s t hrun h => ?_, fun s t hexec hhlt h => ?_, fun s t hended h => ?_⟩
  · rcases step_ran h with ⟨⟨_, hpc⟩, _, hran⟩ | ⟨_, _, rfl⟩ | ⟨hended, _⟩
    · rcases hran.status_cases with hsame | ⟨hhlt, hhalted⟩ | hfault
      · exact .inl (hsame.trans hrun)
      · exact .inr (.inl ⟨hhalted, hhlt, hpc⟩)
      · exact .inr (.inr hfault)
    · exact .inr (.inr ⟨_, rfl⟩)
    · exact absurd hrun hended
  · rw [step_of_executes hexec, hhlt] at h
    cases h
    rfl
  · cases (step_of_ended hended).symm.trans h
    rfl

end Sys2Proof.Machine

/-! SUPPORT. Data movement: MOV and LDI as writes of one register (O6, O7). -/

namespace Sys2Proof

/-! ### Decoding by opcode -/

section
variable {w : Word}

theorem decode_of_opcode_zero (h : opcodeOf w = 0) :
    decode w = .mov (fieldA w) (fieldB w) (fieldC w) := by
  simp only [decode, h]

theorem decode_of_opcode_thirteen (h : opcodeOf w = 13) :
    decode w = .ldi (fieldLdiReg w) (fieldLdiImm w) := by
  simp only [decode, h]

end

end Sys2Proof

namespace Sys2Proof.Machine

/-! ### The write of one register -/

/-- A completed write of a register has the frame of an instruction that changes no other one. -/
theorem onlyRegister_setReg (a : RegId) (v : Word) (s : State) :
    OnlyRegister a s (s.advance.setReg a v) :=
  ⟨rfl, rfl, fun _ hr => s.advance.setReg_reg_other v hr, .refl s⟩

/-- The condition of MOV and PRG (R32). -/
theorem isNonzero_iff (v : Word) : isNonzero v = true ↔ v ≠ 0 := bne_iff_ne

/-- MOV is one write in every case: with `R[C] = 0` the register gets back the value it holds (R130). -/
theorem exec_mov (a b c : RegId) (s : State) : exec (.mov a b c) s =
    .next (s.advance.setReg a (if s.reg c ≠ 0 then s.reg b else s.reg a)) := by
  have hback : s.advance.setReg a (s.reg a) = s.advance := s.advance.setReg_reg a
  simp only [exec, execMov, isNonzero_iff, apply_ite (s.advance.setReg a), hback]

/-- The immediate is zero-extended, so the word is the same number (R86). -/
theorem immWord_toNat (imm : Imm25) : (immWord imm).toNat = imm.toNat :=
  BitVec.toNat_setWidth_of_le (by decide)

/-- Settles O6: the value written is chosen by the condition, and the frame is that of one write. -/
theorem movMovesWhenNonzero : Obligations.MovMovesWhenNonzero :=
  ⟨encodeR_toNat (by decide), fun _ => decode_of_opcode_zero,
    fun a b c s => ⟨_, exec_mov a b c s, State.setReg_reg_self .., onlyRegister_setReg a _ s⟩⟩

/-- Settles O7: the register gets the zero-extended immediate. -/
theorem ldiLoadsZeroExtendedImmediate : Obligations.LdiLoadsZeroExtendedImmediate := by
  refine ⟨encodeI_toNat, fun _ => decode_of_opcode_thirteen, fun r imm s => ?_⟩
  refine ⟨s.advance.setReg r (immWord imm), rfl, ?_, onlyRegister_setReg r _ s⟩
  rw [State.setReg_reg_self, immWord_toNat]

end Sys2Proof.Machine

/-! SUPPORT. Array access: LDA and STA by whether the address is inside an active array, and what a store
leaves of the array space (O8, O9, O36). -/

namespace Sys2Proof

/-! ### Decoding by opcode -/

section
variable {w : Word}

theorem decode_of_opcode_one (h : opcodeOf w = 1) :
    decode w = .lda (fieldA w) (fieldB w) (fieldC w) := by
  simp only [decode, h]

theorem decode_of_opcode_two (h : opcodeOf w = 2) :
    decode w = .sta (fieldA w) (fieldB w) (fieldC w) := by
  simp only [decode, h]

end

end Sys2Proof

namespace Sys2Proof.Machine

/-! ### A store in the array space (R54) -/

theorem inBounds_of_find {m : Memory} {id i : Word} {d : Descriptor} (hd : m.find id = some d)
    (hi : i.toNat < d.length.toNat) : InBounds m id i :=
  ⟨d.length, Memory.len_eq_some_iff.2 ⟨d, hd, rfl⟩, hi⟩

/-- A read of an active array is decided by the index alone (R52, R53). -/
theorem Memory.read_of_find {m : Memory} {id : Word} {d : Descriptor} (hd : m.find id = some d)
    (i : Word) : m.read id i =
      if i.toNat < d.length.toNat then .ok (d.word i.toNat) else .error .inactiveArray := by
  by_cases hi : i.toNat < d.length.toNat
  · rw [if_pos hi, Memory.read_inside hd hi]
  · simp [Memory.read, Memory.lookup, hd, hi]

/-- `m'` is `m` with the word `v` at one address: that element reads `v`, every other address reads as
before, and no length changes. -/
structure StoredAt (m m' : Memory) (id i v : Word) : Prop where
  read_self : m'.read id i = .ok v
  read_other : ∀ x j, ¬ (x = id ∧ j = i) → m'.read x j = m.read x j
  len : ∀ x, m'.len x = m.len x

/-- Binding an identifier to its own array with one word stored inside it changes that element alone. -/
theorem Memory.storedAt_bind {m : Memory} {id i : Word} {d : Descriptor} (hd : m.find id = some d)
    (hi : i.toNat < d.length.toNat) (v : Word) :
    StoredAt m (m.bind id (d.store i.toNat v)) id i v where
  read_self := Memory.read_eq_ok_iff.2 ⟨_, m.bind_find_self id _, hi, d.store_word_self _ v⟩
  read_other x j h := by
    by_cases hx : x = id
    · subst x
      have hj : j.toNat ≠ i.toNat := fun e => h ⟨rfl, BitVec.eq_of_toNat_eq e⟩
      rw [Memory.read_of_find (m.bind_find_self id _), Memory.read_of_find hd,
        Descriptor.store_length, d.store_word_other v hj]
    · exact Memory.read_congr (m.bind_find_other _ hx) j
  len x := by
    by_cases hx : x = id
    · subst x
      simp [Memory.len, hd]
    · exact Memory.len_congr (m.bind_find_other _ hx)

/-! ### The two instructions, by whether the address is inside an active array -/

section
variable {s : State}

/-- LDA of an address that reads `v` writes `v` to its register (R140). -/
theorem exec_lda_of_read (a : RegId) {b c : RegId} {v : Word}
    (h : s.mem.read (s.reg b) (s.reg c) = .ok v) :
    exec (.lda a b c) s = .next (s.advance.setReg a v) := by
  rw [exec, execLda, h]

theorem exec_lda_outside (a : RegId) {b c : RegId} (h : ¬ InBounds s.mem (s.reg b) (s.reg c)) :
    exec (.lda a b c) s = .next (s.advance.setStatus (.faulted .inactiveArray)) := by
  rcases execLda_cases a b c s with ⟨_, hd, hi, _⟩ | ⟨_, e⟩
  · exact absurd (inBounds_of_find hd hi) h
  · exact e

/-- STA to an address inside an active array replaces the memory by one with the word stored there
(R141). -/
theorem exec_sta_inside {a b : RegId} (c : RegId) (h : InBounds s.mem (s.reg a) (s.reg b)) :
    ∃ m, exec (.sta a b c) s = .next (s.advance.setMem m) ∧
      StoredAt s.mem m (s.reg a) (s.reg b) (s.reg c) := by
  rcases execSta_cases a b c s with ⟨_, hd, hi, e⟩ | ⟨hout, _⟩
  · exact ⟨_, e, Memory.storedAt_bind hd hi _⟩
  · exact absurd h (not_inBounds hout)

theorem exec_sta_outside {a b : RegId} (c : RegId) (h : ¬ InBounds s.mem (s.reg a) (s.reg b)) :
    exec (.sta a b c) s = .next (s.advance.setStatus (.faulted .inactiveArray)) := by
  rcases execSta_cases a b c s with ⟨_, hd, hi, _⟩ | ⟨_, e⟩
  · exact absurd (inBounds_of_find hd hi) h
  · exact e

end

/-! ### The obligations -/

/-- Settles O8: inside the array LDA is one register write of the element read, outside it takes the
fault. -/
theorem ldaLoadsElementOrFaults : Obligations.LdaLoadsElementOrFaults := by
  refine ⟨encodeR_toNat (by decide), fun _ => decode_of_opcode_one, fun a b c s d hd hi => ?_,
    fun a b c s hout => ⟨_, exec_lda_outside a hout, faultTaken_advance _ s⟩⟩
  exact ⟨_, exec_lda_of_read a (Memory.read_inside hd hi), State.setReg_reg_self ..,
    onlyRegister_setReg a _ s⟩

/-- Settles O9: inside the array STA changes only the memory, and there only the element addressed;
outside it takes the fault. -/
theorem staStoresElementOrFaults : Obligations.StaStoresElementOrFaults := by
  refine ⟨encodeR_toNat (by decide), fun _ => decode_of_opcode_two, fun a b c s hin => ?_,
    fun a b c s hout => ⟨_, exec_sta_outside c hout, faultTaken_advance _ s⟩⟩
  obtain ⟨m, hexec, hstored⟩ := exec_sta_inside c hin
  exact ⟨_, hexec, hstored.read_self, hstored.read_other, hstored.len, rfl, rfl, fun _ => rfl,
    ⟨rfl, rfl⟩, ⟨rfl, rfl⟩, ⟨rfl, rfl⟩⟩

/-- Settles O36: STA leaves every register, so a later LDA reads the address its registers held before
the store. -/
theorem loadReturnsTheStoredWord : Obligations.LoadReturnsTheStoredWord := by
  intro a b c s hin
  obtain ⟨m, hexec, hstored⟩ := exec_sta_inside c hin
  have loads (x : RegId) {y z : RegId} {v : Word} (hv : m.read (s.reg y) (s.reg z) = .ok v) :
      ∃ u, exec (.lda x y z) (s.advance.setMem m) = .next u ∧ u.reg x = v :=
    ⟨_, exec_lda_of_read x hv, State.setReg_reg_self ..⟩
  refine ⟨_, hexec, fun x y z hy hz => loads x ?_, fun x y z v hother hv => loads x ?_⟩
  · rw [hy, hz, hstored.read_self]
  · rw [hstored.read_other _ _ hother, hv]

end Sys2Proof.Machine

/-! SUPPORT. The ALU: ADD, MUL, DIV and NAN as one register write of a word operation, and the division by 0
(O10, O11, O12, O13). -/

namespace Sys2Proof

/-! ### Decoding by opcode -/

section
variable {w : Word}

theorem decode_of_opcode_three (h : opcodeOf w = 3) :
    decode w = .add (fieldA w) (fieldB w) (fieldC w) := by
  simp only [decode, h]

theorem decode_of_opcode_four (h : opcodeOf w = 4) :
    decode w = .mul (fieldA w) (fieldB w) (fieldC w) := by
  simp only [decode, h]

theorem decode_of_opcode_five (h : opcodeOf w = 5) :
    decode w = .div (fieldA w) (fieldB w) (fieldC w) := by
  simp only [decode, h]

theorem decode_of_opcode_six (h : opcodeOf w = 6) :
    decode w = .nan (fieldA w) (fieldB w) (fieldC w) := by
  simp only [decode, h]

end

end Sys2Proof

namespace Sys2Proof.Machine

/-! ### What each ALU instruction answers -/

section
variable (a b : RegId) {c : RegId} {s : State}

theorem exec_add (c : RegId) (s : State) :
    exec (.add a b c) s = .next (s.advance.setReg a (s.reg b + s.reg c)) := rfl

theorem exec_mul (c : RegId) (s : State) :
    exec (.mul a b c) s = .next (s.advance.setReg a (s.reg b * s.reg c)) := rfl

theorem exec_div_of_ne_zero (h : s.reg c ≠ 0) : exec (.div a b c) s =
    .next (s.advance.setReg a (BitVec.ofNat 32 ((s.reg b).toNat / (s.reg c).toNat))) := if_neg h

/-- The divisor alone decides the fault, whatever the dividend is (R152). -/
theorem exec_div_of_eq_zero (h : s.reg c = 0) :
    exec (.div a b c) s = .next (s.advance.setStatus (.faulted .divisionByZero)) := if_pos h

theorem exec_nan (c : RegId) (s : State) :
    exec (.nan a b c) s = .next (s.advance.setReg a (~~~(s.reg b &&& s.reg c))) := rfl

end

/-- A quotient is at most the dividend, so as a word it is the same number (R152). -/
theorem quotient_toNat (x y : Word) :
    (BitVec.ofNat 32 (x.toNat / y.toNat)).toNat = x.toNat / y.toNat :=
  Nat.mod_eq_of_lt ((Nat.div_le_self ..).trans_lt x.isLt)

/-! ### The obligations -/

/-- Settles O10: the register gets the sum of the two words, which is the sum modulo 2^32. -/
theorem addWritesSumModuloTwoTo32 : Obligations.AddWritesSumModuloTwoTo32 := by
  refine ⟨encodeR_toNat (by decide), fun _ => decode_of_opcode_three, fun a b c s => ?_⟩
  refine ⟨_, exec_add a b c s, State.setReg_reg_self .., ?_, onlyRegister_setReg a _ s⟩
  rw [State.setReg_reg_self, BitVec.toNat_add]

/-- Settles O11: the register gets the product of the two words, which is the product modulo 2^32. -/
theorem mulWritesProductModuloTwoTo32 : Obligations.MulWritesProductModuloTwoTo32 := by
  refine ⟨encodeR_toNat (by decide), fun _ => decode_of_opcode_four, fun a b c s => ?_⟩
  refine ⟨_, exec_mul a b c s, ?_, onlyRegister_setReg a _ s⟩
  rw [State.setReg_reg_self, BitVec.toNat_mul]

/-- Settles O12: a positive divisor gives the quotient of the two numbers, which the two bounds describe;
the divisor 0 gives the fault. -/
theorem divWritesFloorQuotientOrFaults : Obligations.DivWritesFloorQuotientOrFaults := by
  refine ⟨encodeR_toNat (by decide), fun _ => decode_of_opcode_five, fun a b c s hc => ?_,
    fun a b c s hc => ⟨_, exec_div_of_eq_zero a b hc, faultTaken_advance _ s⟩⟩
  have hpos : 0 < (s.reg c).toNat :=
    Nat.pos_of_ne_zero fun hzero => hc (BitVec.eq_of_toNat_eq hzero)
  refine ⟨_, exec_div_of_ne_zero a b hc, ?_, ?_, onlyRegister_setReg a _ s⟩
  · rw [State.setReg_reg_self, quotient_toNat]
    exact Nat.div_mul_le_self ..
  · rw [State.setReg_reg_self, quotient_toNat]
    exact (Nat.div_lt_iff_lt_mul hpos).1 (Nat.lt_succ_self _)

/-- Settles O13: the register gets the complement of the and, read off bit by bit. -/
theorem nanWritesBitwiseNotAnd : Obligations.NanWritesBitwiseNotAnd := by
  refine ⟨encodeR_toNat (by decide), fun _ => decode_of_opcode_six, fun a b c s => ?_⟩
  refine ⟨_, exec_nan a b c s, fun j hj => ?_, onlyRegister_setReg a _ s⟩
  rw [State.setReg_reg_self, BitVec.getLsbD_not, BitVec.getLsbD_and, decide_eq_true hj,
    Bool.true_and]

end Sys2Proof.Machine

/-! SUPPORT. The array manager: what NEW and DEL answer in closed form, which step changes an identifier's
activity, and a freed identifier along a run (O15, O16, O35, O39, O40). -/

namespace Sys2Proof

/-! ### Decoding by opcode -/

section
variable {w : Word}

theorem decode_of_opcode_eight (h : opcodeOf w = 8) : decode w = .new (fieldB w) (fieldC w) := by
  simp only [decode, h]

theorem decode_of_opcode_nine (h : opcodeOf w = 9) : decode w = .del (fieldC w) := by
  simp only [decode, h]

end

end Sys2Proof

namespace Sys2Proof.Machine

/-! ### Allocation (R170, R172) -/

/-- The identifier an allocation answers: the head of the chain, else the slot `CAP`. -/
def State.nextId (s : State) : Word := s.free.head?.getD (BitVec.ofNat 32 s.cap)

/-- The chain after an allocation. -/
def State.nextFree (s : State) : List Word := if s.free = [] then newSlots s.cap else s.free.tail

/-- The capacity after an allocation. -/
def State.nextCap (s : State) : Nat := if s.free = [] then 2 * s.cap else s.cap

/-- The state after an allocation of `n` words. -/
def State.allocated (s : State) (n : Word) : State :=
  (s.setMem (s.mem.bind s.nextId (.zeros n))).setChain s.nextFree s.nextCap

section
variable {s : State} {n id : Word}

/-- `Allocate` makes the resource checks and then one change of the state, from the chain or by growth. -/
theorem allocate_eq (n : Word) (s : State) : allocate n s =
    if s.canAllocate n then .ok (s.nextId, s.allocated n) else .error .allocExhausted := by
  cases hf : s.free <;>
    simp [allocate, State.allocated, State.nextId, State.nextFree, State.nextCap, hf]

/-- The resource checks in the words of R173. -/
theorem State.canAllocate_iff_room : s.canAllocate n = true ↔
    (s.free ≠ [] ∨ s.cap < 2 ^ 32) ∧ ¬ ExceedsStore s (s.mem.used + n.toNat) := by
  rw [State.canAllocate_iff, State.fits_iff]

theorem State.not_canAllocate_iff : s.canAllocate n = false ↔
    (s.free = [] ∧ 2 ^ 32 ≤ s.cap) ∨ ExceedsStore s (s.mem.used + n.toNat) := by
  rw [← Bool.not_eq_true, State.canAllocate_iff_room, not_and_or, not_or, not_not, not_lt, not_not]

theorem State.allocated_find (s : State) (n : Word) :
    (s.allocated n).mem.find s.nextId = some (.zeros n) := Memory.bind_find_self ..

/-- The new array has the length asked for, and every element reads 0. -/
theorem State.allocated_zeros (s : State) (n : Word) :
    (s.allocated n).mem.len s.nextId = some n ∧
      ∀ i : Word, i.toNat < n.toNat → (s.allocated n).mem.read s.nextId i = .ok 0 :=
  ⟨Memory.len_eq_some_iff.2 ⟨_, s.allocated_find n, rfl⟩,
    fun _ hi => Memory.read_inside (s.allocated_find n) hi⟩

theorem State.allocated_sameArraysBut (s : State) (n : Word) :
    SameArraysBut s.nextId s (s.allocated n) :=
  fun _ hid => Memory.sameArray_of_find (Memory.bind_find_other _ _ hid)

/-- The slots of growth, by their place on the chain. -/
theorem newSlots_getElem? (cap k : Nat) : (newSlots cap)[k]? =
    if k + 1 < cap then some (BitVec.ofNat 32 (cap + 1 + k)) else none := by
  split
  case isTrue h =>
    rw [newSlots, List.getElem?_map, List.getElem?_range' (by omega), Nat.one_mul]
    rfl
  case isFalse h =>
    rw [newSlots, List.getElem?_map, List.getElem?_eq_none (by rw [List.length_range']; omega)]
    rfl

/-- Identifier 0 is always active (R28 item 1). -/
theorem Memory.ne_zero_of_inactive {m : Memory} (h : m.active id = false) : id ≠ 0 := by
  rintro rfl
  cases h

/-- The identifier an allocation answers was not active. -/
theorem State.Inv.nextId_inactive (hs : s.Inv) (hid : s.free ≠ [] ∨ s.cap < 2 ^ 32) :
    s.mem.active s.nextId = false := by
  cases hf : s.free with
  | nil =>
    rw [State.nextId, hf]
    exact hs.cap_inactive (hid.resolve_left (not_not.2 hf))
  | cons head rest =>
    rw [State.nextId, hf]
    exact hs.chainInactive head (hf ▸ .head _)

/-- The table after an allocation meets the table's invariant, with the identifier among the active
ones. -/
theorem State.Inv.tableInv_allocated (hs : s.Inv) (hid : s.free ≠ [] ∨ s.cap < 2 ^ 32) :
    TableInv s.nextFree s.nextCap fun x => x = s.nextId ∨ s.mem.active x = true := by
  have htable := hs.tableInv
  cases hf : s.free with
  | nil =>
    rw [hf] at htable
    simpa [State.nextFree, State.nextCap, State.nextId, hf] using
      htable.grow (hid.resolve_left (not_not.2 hf))
  | cons head rest =>
    rw [hf] at htable
    simpa [State.nextFree, State.nextCap, State.nextId, hf] using htable.reuse

/-- After growth every new slot but the one answered is on the chain. -/
theorem mem_newSlots_of_ne {cap : Nat} (hc : 2 * cap ≤ 2 ^ 32) (h1 : cap ≤ id.toNat)
    (h2 : id.toNat < 2 * cap) (hne : id ≠ BitVec.ofNat 32 cap) : id ∈ newSlots cap := by
  refine (mem_newSlots hc).2 ⟨lt_of_le_of_ne h1 fun heq => hne ?_, h2⟩
  rw [heq, BitVec.ofNat_toNat, BitVec.setWidth_eq]

end

/-- Settles O40: the table before and after the allocation meets the invariant, and what is active is
neither 0 nor on the chain nor out of range. -/
theorem allocateStaysInTheEnvelope : Obligations.AllocateStaysInTheEnvelope := by
  intro n s id t hs h
  rw [allocate_eq] at h
  split at h
  case isFalse => cases h
  case isTrue hcan =>
    cases h
    obtain ⟨hid, _⟩ := State.canAllocate_iff_room.1 hcan
    have htable := hs.tableInv_allocated hid
    have hinactive := hs.nextId_inactive hid
    refine ⟨fun head rest hf => ?_, fun hf => ?_, Memory.ne_zero_of_inactive hinactive, hinactive,
      Memory.active_of_find (s.allocated_find n), fun hmem => htable.chainInactive _ hmem (.inl rfl)⟩
    · simp [State.nextId, State.allocated, State.nextFree, State.nextCap, hf]
    · have hcap : s.cap < 2 ^ 32 := hid.resolve_left (not_not.2 hf)
      have hnextId : s.nextId = BitVec.ofNat 32 s.cap := by simp [State.nextId, hf]
      have hnextCap : s.nextCap = 2 * s.cap := if_pos hf
      have hnextFree : s.nextFree = newSlots s.cap := if_pos hf
      refine ⟨?_, htable.activeRange _ (.inl rfl), fun j hge hlt hne => ?_⟩
      · rw [hnextId, BitVec.toNat_ofNat, Nat.mod_eq_of_lt hcap]
      · show j ∈ s.nextFree
        replace hlt : j.toNat < s.nextCap := hlt
        have hle := htable.cap_le
        rw [hnextCap] at hlt hle
        rw [hnextFree]
        exact mem_newSlots_of_ne hle hge hlt (hnextId ▸ hne)

/-! ### What NEW and DEL answer -/

section
variable {s : State} {c : RegId}

/-- NEW with an identifier and storage left allocates and writes the identifier (R174). -/
theorem exec_new_of_room (b : RegId) (hid : s.free ≠ [] ∨ s.cap < 2 ^ 32)
    (hroom : ¬ ExceedsStore s (s.mem.used + (s.reg c).toNat)) : exec (.new b c) s =
      .next ((s.advance.allocated (s.reg c)).setReg b s.nextId) := by
  have hcan : s.advance.canAllocate (s.reg c) = true := State.canAllocate_iff_room.2 ⟨hid, hroom⟩
  rw [exec, execNew, allocate_eq, if_pos hcan]
  rfl

theorem exec_new_exhausted (b : RegId) (h : (s.free = [] ∧ 2 ^ 32 ≤ s.cap) ∨
    ExceedsStore s (s.mem.used + (s.reg c).toNat)) :
    exec (.new b c) s = .next (s.advance.setStatus (.faulted .allocExhausted)) := by
  have hcan : s.advance.canAllocate (s.reg c) = false := State.not_canAllocate_iff.2 h
  rw [exec, execNew, allocate_eq, hcan]
  rfl

theorem exec_del_of_active (h0 : s.reg c ≠ 0) (ha : s.mem.active (s.reg c) = true) :
    exec (.del c) s = .next (release (s.reg c) s.advance) :=
  if_neg (not_or.2 ⟨h0, by simp [ha]⟩)

theorem exec_del_bad (h : s.reg c = 0 ∨ s.mem.active (s.reg c) = false) :
    exec (.del c) s = .next (s.advance.setStatus (.faulted .badDelete)) := if_pos h

/-- A released identifier is not active (R171). -/
theorem release_inactive {id : Word} (h0 : id ≠ 0) (s : State) :
    (release id s).mem.active id = false := by
  rw [Memory.active, release, State.setChain_mem, State.setMem_mem, Memory.unbind_find_self _ h0]
  rfl

end

/-- Settles O15: the state after the NEW is one allocation and one register write. -/
theorem newAllocatesZeroedArray : Obligations.NewAllocatesZeroedArray := by
  refine ⟨fun b c => (encodeR_toNat (by decide) 0 b c).trans (by simp),
    fun _ => decode_of_opcode_eight, fun b c s hid hroom => ?_,
    fun b c s h => ⟨_, exec_new_exhausted b h, faultTaken_advance _ s⟩⟩
  obtain ⟨hlen, hread⟩ := s.advance.allocated_zeros (s.reg c)
  refine ⟨_, s.nextId, exec_new_of_room b hid hroom, rfl, State.setReg_reg_self ..,
    fun _ hr => State.setReg_reg_other _ _ hr, hlen, hread,
    s.advance.allocated_sameArraysBut (s.reg c), fun hf => ⟨if_neg hf, if_neg hf⟩,
    fun hf => ⟨if_pos hf, fun k => ?_⟩, fun hs => ?_, rfl, rfl, ⟨rfl, rfl⟩, ⟨rfl, rfl⟩⟩
  · show s.nextFree[k]? = _
    rw [State.nextFree, if_pos hf, newSlots_getElem?]
  · have hinactive := hs.nextId_inactive hid
    exact ⟨Memory.ne_zero_of_inactive hinactive, hinactive,
      Memory.active_of_find (s.advance.allocated_find (s.reg c))⟩

/-- Settles O16: the state after the DEL is one release. -/
theorem delFreesArrayOrFaults : Obligations.DelFreesArrayOrFaults := by
  refine ⟨fun c => (encodeR_toNat (by decide) 0 0 c).trans (by simp),
    fun _ => decode_of_opcode_nine, fun c s h0 ha => ?_,
    fun c s h => ⟨_, exec_del_bad h, faultTaken_advance _ s⟩⟩
  exact ⟨_, exec_del_of_active h0 ha, release_inactive h0 _, rfl, rfl,
    fun _ hid => Memory.sameArray_of_find (Memory.unbind_find_other _ hid), rfl, rfl, fun _ => rfl,
    ⟨rfl, rfl⟩, ⟨rfl, rfl⟩⟩

/-! ### Which step changes an identifier's activity (R176) -/

section
variable {s t : State} {id : Word}

/-- An identifier becomes active only at a NEW that completes and returns it. -/
theorem step_activates (h : step s = .next t) (hs : s.mem.active id = false)
    (ht : t.mem.active id = true) : NewReturned id s t := by
  have stays (hsame : t.mem.active id = s.mem.active id) : NewReturned id s t :=
    absurd (hsame.symm.trans ht) (by simp [hs])
  rcases step_ran h with ⟨hexec, _, hran⟩ | ⟨_, _, rfl⟩ | ⟨_, rfl⟩
  · cases hran.tableMove with
    | same htable _ => exact stays (htable.active id)
    | reuse b c new hi _ _ hreg hstatus hactive =>
      obtain rfl : id = new := ((hactive id).1 ht).resolve_right (by simp [hs])
      exact ⟨hexec, hstatus.trans hexec.1, b, c, hi, hreg⟩
    | grow b c hi _ _ _ _ hreg hstatus hactive =>
      obtain rfl : id = _ := ((hactive id).1 ht).resolve_right (by simp [hs])
      exact ⟨hexec, hstatus.trans hexec.1, b, c, hi, hreg⟩
    | release c _ _ _ _ _ _ hactive => exact absurd ((hactive id).1 ht).2 (by simp [hs])
  · exact stays rfl
  · exact stays rfl

/-- An identifier stops being active only at a DEL of it. -/
theorem step_deactivates (h : step s = .next t) (hs : s.mem.active id = true)
    (ht : t.mem.active id = false) : s.Executes ∧ ∃ c, s.nextInstr = .del c ∧ s.reg c = id := by
  rw [← Bool.not_eq_true] at ht
  rcases step_ran h with ⟨hexec, _, hran⟩ | ⟨_, _, rfl⟩ | ⟨_, rfl⟩
  · cases hran.tableMove with
    | same htable _ => exact absurd ((htable.active id).trans hs) ht
    | reuse _ _ _ _ _ _ _ _ hactive => exact absurd ((hactive id).2 (.inr hs)) ht
    | grow _ _ _ _ _ _ _ _ _ hactive => exact absurd ((hactive id).2 (.inr hs)) ht
    | release c hi _ _ _ _ _ hactive =>
      exact ⟨hexec, c, hi, by_contra fun hne => ht ((hactive id).2 ⟨fun e => hne e.symm, hs⟩)⟩
  · exact absurd hs ht
  · exact absurd hs ht

end

/-- Settles O35: the change is an activation or a deactivation. -/
theorem arraysLiveFromNewToDel : Obligations.ArraysLiveFromNewToDel := by
  intro s t id h hne
  cases hs : s.mem.active id with
  | false =>
    have ht : t.mem.active id = true := by simpa [hs] using hne
    obtain ⟨hexec, _, b, c, hi, hreg⟩ := step_activates h hs ht
    exact ⟨hexec, .inl ⟨b, c, hi, hreg, ht⟩⟩
  | true =>
    have ht : t.mem.active id = false := by simpa [hs] using hne
    obtain ⟨hexec, c, hi, hreg⟩ := step_deactivates h hs ht
    exact ⟨hexec, .inr ⟨c, hi, hreg, ht⟩⟩

/-! ### A freed identifier along a run (R67, R178) -/

section
variable {s : State} {id : Word}

theorem not_inBounds_of_inactive {m : Memory} (h : m.active id = false) (i : Word) :
    ¬ InBounds m id i :=
  not_inBounds fun d hd => by simp [Memory.active_of_find hd] at h

theorem exec_prg_inactive {b : RegId} (c : RegId) (h : s.mem.active (s.reg b) = false) :
    exec (.prg b c) s = .next (s.advance.setStatus (.faulted .programFromInactive)) := by
  have hnone := Memory.find_eq_none_of_inactive h
  rcases execPrg_cases b c s with ⟨h0, _⟩ | ⟨_, d, hd, _⟩ | ⟨_, _, e⟩ | ⟨_, d, hd, _⟩
  · exact absurd h0 (Memory.ne_zero_of_inactive h)
  · cases hnone.symm.trans hd
  · exact e
  · cases hnone.symm.trans hd

/-- Every use of an identifier that is not active faults. -/
theorem everyUseFaults_of_inactive (h : s.mem.active id = false) : EveryUseFaults id s := by
  rintro x rfl
  exact ⟨fun a _ => ⟨_, exec_lda_outside a (not_inBounds_of_inactive h _), faultTaken_advance _ s⟩,
    fun _ z => ⟨_, exec_sta_outside z (not_inBounds_of_inactive h _), faultTaken_advance _ s⟩,
    fun y => ⟨_, exec_prg_inactive y h, faultTaken_advance _ s⟩,
    ⟨_, exec_del_bad (.inr h), faultTaken_advance _ s⟩⟩

/-- The host's turn and a step keep an identifier inactive when the step is no NEW that returns it. -/
theorem Run.next_inactive {inp : InputStream} {r : Run} (h : r.core.mem.active id = false)
    (hnew : ¬ NewReturned id r.core (r.next inp).core) :
    (r.next inp).core.mem.active id = false := by
  obtain ⟨left, hsupply⟩ := r.supply_core inp
  obtain ⟨t, hstep⟩ := everyStepAnswersANextState (r.supply inp).core
  rw [Run.next_eq hstep] at hnew ⊢
  rw [hsupply] at hstep
  rw [← Bool.not_eq_true]
  intro ht
  have hreturned : NewReturned id (r.core.setInput left) t := step_activates hstep h ht
  exact hnew hreturned

/-- An inactive identifier stays inactive along a run until a NEW returns it. -/
theorem Run.after_inactive {inp : InputStream} {r : Run} (h : r.core.mem.active id = false) (k : Nat)
    (hnew : ∀ j < k, ¬ NewReturned id (r.after inp j).core (r.after inp (j + 1)).core) :
    (r.after inp k).core.mem.active id = false := by
  induction k with
  | zero => exact h
  | succ k ih =>
    have hlast := hnew k (Nat.lt_succ_self k)
    rw [Run.after_step] at hlast ⊢
    exact Run.next_inactive (ih fun j hj => hnew j (Nat.lt_succ_of_lt hj)) hlast

end

/-- Settles O39: the identifier is inactive along the run, and as the head of the chain it is the one the
next allocation answers. -/
theorem aFreedIdentifierIsReusedNext : Obligations.AFreedIdentifierIsReusedNext := by
  intro c s h0 ha
  refine ⟨_, exec_del_of_active h0 ha, fun inp n k hnew => ?_, fun b d hroom => ?_⟩
  · exact everyUseFaults_of_inactive (Run.after_inactive (release_inactive h0 _) k hnew)
  · obtain ⟨hlen, hread⟩ := (release (s.reg c) s.advance).advance.allocated_zeros
      ((release (s.reg c) s.advance).reg d)
    exact ⟨_, exec_new_of_room b (.inl (List.cons_ne_nil _ _)) hroom, State.setReg_reg_self ..,
      hlen, rfl, hread⟩

end Sys2Proof.Machine

/-! SUPPORT. The byte interface: what OUT and INP answer, that no other meaning looks at the input, and the
hand-over of a stream along a run (O17, O18, O31, O32, O55 to O58). -/

namespace Sys2Proof

/-! ### Decoding by opcode -/

section
variable {w : Word}

theorem decode_of_opcode_ten (h : opcodeOf w = 10) : decode w = .out (fieldC w) := by
  simp only [decode, h]

theorem decode_of_opcode_eleven (h : opcodeOf w = 11) : decode w = .inp (fieldC w) := by
  simp only [decode, h]

end

end Sys2Proof

namespace Sys2Proof.Machine

/-! ### What OUT and INP answer -/

section
variable {s : State} {c : RegId}

theorem exec_out_of_ready (hb : (s.reg c).toNat ≤ 255) (hr : s.outReady = true) :
    exec (.out c) s = .next (s.advance.emit (lowByte (s.reg c))) := by
  rcases execOut_cases c s with ⟨_, _, e⟩ | ⟨_, hnot, _⟩ | ⟨hlarge, _⟩
  · exact e
  · exact absurd hr (by simp [hnot])
  · exact absurd hb hlarge.not_ge

theorem exec_out_above (hb : 255 < (s.reg c).toNat) :
    exec (.out c) s = .next (s.advance.setStatus (.faulted .characterRange)) := by
  rcases execOut_cases c s with ⟨hbyte, _⟩ | ⟨hbyte, _⟩ | ⟨_, e⟩
  · exact absurd hb hbyte.not_gt
  · exact absurd hb hbyte.not_gt
  · exact e

theorem exec_inp_of_byte {b : Byte} {rest : List Byte} (hp : s.input.pending = b :: rest) :
    exec (.inp c) s = .next
      ((s.advance.setInput { pending := rest, ended := s.input.ended }).setReg c (byteWord b)) := by
  rcases execInp_cases c s with ⟨_, _, hp', e⟩ | ⟨hnil, _⟩ | ⟨hnil, _⟩
  · cases hp.symm.trans hp'
    exact e
  · cases hp.symm.trans hnil
  · cases hp.symm.trans hnil

theorem exec_inp_of_end (hp : s.input.pending = []) (he : s.input.ended = true) :
    exec (.inp c) s = .next (s.advance.setReg c Config.eofWord) := by
  rcases execInp_cases c s with ⟨_, _, hp', _⟩ | ⟨_, _, e⟩ | ⟨_, hnot, _⟩
  · cases hp.symm.trans hp'
  · exact e
  · cases he.symm.trans hnot

/-- A held instruction is not taken (R194). -/
theorem exec_of_holds {i : Instr} (h : Holds i s) : exec i s = .next s := by
  cases i with
  | out c =>
    obtain ⟨hb, hr⟩ := h
    rcases execOut_cases c s with ⟨_, hready, _⟩ | ⟨_, _, e⟩ | ⟨hlarge, _⟩
    · cases hr.symm.trans hready
    · exact e
    · exact absurd hb hlarge.not_ge
  | inp c =>
    obtain ⟨hp, he⟩ := h
    rcases execInp_cases c s with ⟨_, _, hp', _⟩ | ⟨_, hend, _⟩ | ⟨_, _, e⟩
    · cases hp.symm.trans hp'
    · cases he.symm.trans hend
    · exact e
  | _ => exact h.elim

end

/-- Settles O17: the state after the OUT is one byte emitted, the fault of R190 or the state held. -/
theorem outEmitsByteOrFaults : Obligations.OutEmitsByteOrFaults := by
  refine ⟨fun c => (encodeR_toNat (by decide) 0 0 c).trans (by simp),
    fun _ => decode_of_opcode_ten, fun c s hb hr => ?_,
    fun c s hb hr => exec_of_holds (i := .out c) ⟨hb, hr⟩,
    fun c s hb => ⟨_, exec_out_above hb, faultTaken_advance _ s⟩⟩
  exact ⟨_, _, exec_out_of_ready hb hr, rfl, lowByte_toNat hb, rfl, rfl, rfl, fun _ => rfl,
    fun _ => ⟨rfl, fun _ => rfl⟩, ⟨rfl, rfl⟩, ⟨rfl, rfl⟩⟩

/-- Settles O18: the state after the INP is one register write, with the byte taken from the input, or the
state held. -/
theorem inpReadsByteOrEndOfInput : Obligations.InpReadsByteOrEndOfInput := by
  refine ⟨fun c => (encodeR_toNat (by decide) 0 0 c).trans (by simp),
    fun _ => decode_of_opcode_eleven, fun c s b rest hp => ?_, fun c s hp he => ?_,
    fun c s hp he => exec_of_holds (i := .inp c) ⟨hp, he⟩⟩
  · refine ⟨_, exec_inp_of_byte hp, ?_, rfl, rfl, rfl, rfl, rfl,
      fun _ hr => State.setReg_reg_other _ _ hr, fun _ => ⟨rfl, fun _ => rfl⟩, ⟨rfl, rfl⟩, ⟨rfl, rfl⟩⟩
    rw [State.setReg_reg_self, byteWord_toNat]
  · refine ⟨_, exec_inp_of_end hp he, ?_, onlyRegister_setReg c _ s⟩
    rw [State.setReg_reg_self]
    rfl

/-! ### Only INP looks at the input (R30, R193) -/

/-- The answer with another input left. -/
def Result.withInput (inp : Input) : Result → Result
  | .next t => .next (t.setInput inp)
  | .fault k => .fault k
  | .refused r => .refused r

@[simp] theorem State.setInput_fits (s : State) (inp : Input) (n : Nat) :
    (s.setInput inp).fits n = s.fits n := rfl

/-- The image replacement of PRG does not look at the input. -/
theorem installImage_setInput (id : Word) (s : State) (inp : Input) :
    installImage id (s.setInput inp) = (installImage id s).map (·.setInput inp) := by
  rcases installImage_cases id s with ⟨d, hd, hfits, e⟩ | ⟨hnone, e⟩ | ⟨d, hd, hx, e⟩ <;> rw [e]
  · simp only [installImage, State.setInput_mem, hd, State.setInput_fits, hfits, ↓reduceIte]
    rfl
  · simp only [installImage, State.setInput_mem, hnone]
    rfl
  · simp only [installImage, State.setInput_mem, hd, State.setInput_fits,
      (s.not_fits_iff _).2 hx, Bool.false_eq_true, ↓reduceIte]
    rfl

section
variable {i : Instr} {s : State} {inp : Input}

theorem exec_setInput_of_next {t : State} (h : exec i s = .next t)
    (hinput : exec i (s.setInput inp) = .next (t.setInput inp)) :
    exec i (s.setInput inp) = Result.withInput inp (exec i s) := by
  rw [hinput, h]
  rfl

/-- Every instruction but INP does the same whatever input is left, and leaves it as it is: the conditions
under which it ends in one way or another do not speak of the input. -/
theorem exec_setInput (hi : ∀ c, i ≠ .inp c) :
    exec i (s.setInput inp) = Result.withInput inp (exec i s) := by
  cases i with
  | inp c => exact absurd rfl (hi c)
  | mov a b c => exact exec_setInput_of_next (exec_mov a b c s) (exec_mov a b c _)
  | lda a b c =>
    simp only [exec, execLda, State.setInput_mem, State.setInput_reg]
    cases s.mem.read (s.reg b) (s.reg c) <;> rfl
  | sta a b c =>
    simp only [exec, execSta, State.setInput_mem, State.setInput_reg]
    cases s.mem.write (s.reg a) (s.reg b) (s.reg c) <;> rfl
  | div a b c =>
    by_cases h : s.reg c = 0
    · exact exec_setInput_of_next (exec_div_of_eq_zero a b h) (exec_div_of_eq_zero a b h)
    · exact exec_setInput_of_next (exec_div_of_ne_zero a b h) (exec_div_of_ne_zero a b h)
  | new b c =>
    by_cases h : (s.free = [] ∧ 2 ^ 32 ≤ s.cap) ∨ ExceedsStore s (s.mem.used + (s.reg c).toNat)
    · exact exec_setInput_of_next (exec_new_exhausted b h) (exec_new_exhausted b h)
    · rw [not_or, not_and_or, not_le] at h
      obtain ⟨hid, hroom⟩ := h
      exact exec_setInput_of_next (exec_new_of_room b hid hroom) (exec_new_of_room b hid hroom)
  | del c =>
    by_cases h : s.reg c = 0 ∨ s.mem.active (s.reg c) = false
    · exact exec_setInput_of_next (exec_del_bad h) (exec_del_bad h)
    · rw [not_or, Bool.not_eq_false] at h
      obtain ⟨h0, ha⟩ := h
      exact exec_setInput_of_next (exec_del_of_active h0 ha) (exec_del_of_active h0 ha)
  | out c =>
    by_cases hb : (s.reg c).toNat ≤ 255
    · cases hr : s.outReady with
      | true => exact exec_setInput_of_next (exec_out_of_ready hb hr) (exec_out_of_ready hb hr)
      | false =>
        have hh : Holds (.out c) s := ⟨hb, hr⟩
        exact exec_setInput_of_next (exec_of_holds hh) (exec_of_holds (i := .out c) hh)
    · rw [not_le] at hb
      exact exec_setInput_of_next (exec_out_above hb) (exec_out_above hb)
  | prg b c =>
    simp only [exec, execPrg, State.setInput_reg, installImage_setInput]
    cases isNonzero (s.reg b) <;> cases installImage (s.reg b) s <;> rfl
  | _ => rfl

end

section
variable {s t : State}

theorem step_eq_exec {i : Instr} (hexec : s.Executes) (hi : s.nextInstr = i) : step s = exec i s :=
  hi ▸ step_of_executes hexec

/-- A step that executes no INP does the same whatever input is left, and leaves it as it is. -/
theorem step_setInput (hi : ∀ c, s.Executes → s.nextInstr ≠ .inp c) (inp : Input) :
    step (s.setInput inp) = Result.withInput inp (step s) := by
  rcases step_cases s with ⟨hrun, hpc, e⟩ | ⟨hrun, hpc, e⟩ | ⟨hended, e⟩
  · have hstep : step (s.setInput inp) = exec s.nextInstr (s.setInput inp) :=
      step_of_executes ⟨hrun, hpc⟩
    rw [hstep, e]
    exact exec_setInput fun c => hi c ⟨hrun, hpc⟩
  · rw [e]
    exact step_of_pc_outside hrun hpc
  · rw [e]
    exact step_of_ended hended

/-- A step that executes no INP leaves the input as it was. -/
theorem step_input_eq (hi : ∀ c, s.Executes → s.nextInstr ≠ .inp c) (h : step s = .next t) :
    t.input = s.input := by
  have hsame : step s = Result.withInput s.input (step s) := step_setInput hi s.input
  rw [h] at hsame
  have ht : t = t.setInput s.input := Host.Outcome.next.inj hsame
  rw [ht, State.setInput_input]

end

/-- Settles O31: INP with a byte delivered takes the first one, and no other step looks at the input. -/
theorem unreadInputIsNotSeen : Obligations.UnreadInputIsNotSeen := by
  intro s t more hseen h
  by_cases hi : ∃ c, s.Executes ∧ s.nextInstr = .inp c
  · obtain ⟨c, hexec, hc⟩ := hi
    obtain ⟨b, rest, hp⟩ := List.exists_cons_of_ne_nil (hseen.resolve_right fun hnot => hnot c hc)
    have hmore : (s.withMoreInput more).input.pending = b :: (rest ++ more) :=
      congrArg (· ++ more) hp
    rw [step_eq_exec hexec hc, exec_inp_of_byte hp] at h
    cases h
    exact (step_eq_exec (s := s.withMoreInput more) hexec hc).trans (exec_inp_of_byte hmore)
  · have hnot : ∀ c, s.Executes → s.nextInstr ≠ .inp c := fun c hexec hc => hi ⟨c, hexec, hc⟩
    have hmore : t.withMoreInput more = t.setInput (s.withMoreInput more).input := by
      rw [State.withMoreInput, step_input_eq hnot h]
      rfl
    have hsame := step_setInput hnot (s.withMoreInput more).input
    rw [h] at hsame
    rw [hmore]
    exact hsame

/-! ### A held INP and the host's transfer (R194, R195) -/

section
variable {s : State} {c : RegId}

/-- Nothing is transferred and not read while an INP holds. -/
theorem Holds.input_eq (hh : Holds (.inp c) s) :
    s.input = { pending := [], ended := false } := by
  obtain ⟨hp, he⟩ := hh
  rw [← hp, ← he]

variable (hexec : s.Executes) (hc : s.nextInstr = .inp c) (hh : Holds (.inp c) s)
include hexec hc hh

/-- With a byte delivered the held INP completes, and the byte is gone from the input again. -/
theorem step_deliver_of_holds (b : Byte) :
    step (s.deliver b) = .next (s.advance.setReg c (byteWord b)) := by
  have hdeliver : s.deliver b = s.setInput { pending := [b], ended := false } := by
    simp [State.deliver, hh.input_eq]
  have hback : s.setInput { pending := [], ended := false } = s := by
    rw [← hh.input_eq]
    rfl
  calc step (s.deliver b)
    _ = exec (.inp c) (s.setInput { pending := [b], ended := false }) := by
      rw [hdeliver]
      exact step_eq_exec (s := s.setInput _) hexec hc
    _ = .next ((s.setInput { pending := [], ended := false }).advance.setReg c (byteWord b)) :=
      exec_inp_of_byte rfl
    _ = .next (s.advance.setReg c (byteWord b)) := by rw [hback]

/-- With the end of input signalled the held INP completes with the EOF value. -/
theorem step_endInput_of_holds :
    step s.endInput = .next (s.endInput.advance.setReg c Config.eofWord) :=
  (step_eq_exec (s := s.endInput) hexec hc).trans (exec_inp_of_end hh.1 rfl)

end

/-- Settles O32: the held instruction is not taken, and after the host's turn it is executed whole. -/
theorem aHoldIsLiftedByTheHost : Obligations.AHoldIsLiftedByTheHost := by
  refine ⟨fun s hexec hh => (step_of_executes hexec).trans (exec_of_holds hh),
    fun s c b hexec hc hh => ?_, fun s c hexec hc hh => ?_, fun s c hexec hc hh => ?_⟩
  · refine ⟨_, step_deliver_of_holds hexec hc hh b, ?_, rfl, rfl⟩
    rw [State.setReg_reg_self, byteWord_toNat]
  · refine ⟨_, step_endInput_of_holds hexec hc hh, ?_, rfl⟩
    rw [State.setReg_reg_self]
    rfl
  · have hstep := (step_eq_exec (s := s.setOutReady true) hexec hc).trans
      (exec_out_of_ready hh.1 rfl)
    exact ⟨_, _, hstep, rfl, lowByte_toNat hh.1, rfl⟩

/-! ### The output along a run (R192) -/

theorem stepState_outs_prefix (s : State) : s.outs <+: (stepState s).outs := by
  obtain ⟨t, h⟩ := everyStepAnswersANextState s
  rw [stepState_eq h]
  rcases outputGrowsOnlyByOut s t h with hsame | ⟨_, b, _, _, _, happend⟩
  · rw [hsame]
  · exact ⟨[b], happend.symm⟩

/-- The host's turn emits nothing. -/
theorem Run.next_outs_prefix (inp : InputStream) (r : Run) :
    r.core.outs <+: (r.next inp).core.outs := by
  obtain ⟨left, hsupply⟩ := r.supply_core inp
  have hstep := stepState_outs_prefix (r.supply inp).core
  rw [hsupply] at hstep
  rw [Run.next, hsupply]
  exact hstep

theorem Run.after_outs_prefix (inp : InputStream) (k : Nat) (r : Run) :
    r.core.outs <+: (r.after inp k).core.outs := by
  induction k with
  | zero => exact List.prefix_rfl
  | succ k ih =>
    rw [Run.after_step]
    exact ih.trans (Run.next_outs_prefix inp _)

theorem runSteps_outs_prefix (k : Nat) (s : State) : s.outs <+: (runSteps k s).outs := by
  induction k with
  | zero => exact List.prefix_rfl
  | succ k ih =>
    rw [runSteps_step]
    exact ih.trans (stepState_outs_prefix _)

/-- Settles O55: the run after `j + k` steps goes on from the one after `j`. -/
theorem outputIsNeverTakenBack : Obligations.OutputIsNeverTakenBack := by
  constructor
  · intro inp r j k
    rw [Run.after_add]
    exact Run.after_outs_prefix inp k _
  · intro s j k
    rw [runSteps_add]
    exact runSteps_outs_prefix k _

/-! ### The hand-over of a stream along a run (R193, R195) -/

/-- What a run that holds at `INP c` is after the host's turn and a step, by what the host transfers. -/
def Run.take (c : RegId) (r : Run) : Option Transfer → Run
  | none => r
  | some (.byte b) => { core := r.core.advance.setReg c (byteWord b), given := r.given + 1 }
  | some .endOfInput => { r with core := r.core.endInput.advance.setReg c Config.eofWord }

theorem Run.next_of_holds {r : Run} {c : RegId} (inp : InputStream) (hexec : r.core.Executes)
    (hc : r.core.nextInstr = .inp c) (hh : Holds (.inp c) r.core) :
    r.next inp = r.take c (inp.transfer r.given) := by
  have hsupply : r.supply inp = ((inp.transfer r.given).map r.accept).getD r :=
    if_pos (r.core.awaitsInput_iff.2 ⟨hexec, c, hc, hh⟩)
  rw [Run.next, hsupply]
  rcases inp.transfer r.given with _ | b | _
  · have hstep : step r.core = .next r.core :=
      (step_eq_exec hexec hc).trans (exec_of_holds hh)
    exact congrArg (Run.mk · r.given) (stepState_eq hstep)
  · exact congrArg (Run.mk · (r.given + 1)) (stepState_eq (step_deliver_of_holds hexec hc hh b))
  · exact congrArg (Run.mk · r.given) (stepState_eq (step_endInput_of_holds hexec hc hh))

/-- Settles O56: the four clauses are what the held INP makes of the host's transfer. -/
theorem inpTakesTheNextByteOfTheStream : Obligations.InpTakesTheNextByteOfTheStream := by
  intro inp r c hexec hc hh
  rw [Run.next_of_holds inp hexec hc hh]
  have hreg (b : Byte) : ((r.take c (some (.byte b))).core.reg c).toNat = b.toNat := by
    rw [Run.take, State.setReg_reg_self, byteWord_toNat]
  refine ⟨fun b ht => ?_, fun ht => ?_, fun ht => ?_, ?_⟩
  · rw [ht]
    exact ⟨hreg b, rfl, rfl, rfl⟩
  · rw [ht, Run.take, State.setReg_reg_self]
    exact ⟨rfl, rfl, rfl⟩
  · rw [ht]
    rfl
  · rintro byteAt rfl
    exact hreg (byteAt r.given)

/-- The host never takes a byte back. -/
theorem Run.given_le_next (inp : InputStream) (r : Run) : r.given ≤ (r.next inp).given := by
  show r.given ≤ (r.supply inp).given
  rcases r.supply_cases inp with ⟨_, e⟩ | ⟨_, _, e⟩ | ⟨_, _, _, e⟩ | ⟨_, _, e⟩ <;> rw [e]
  exact Nat.le_succ _

/-- A step of a run asks the stream for nothing but what comes next. -/
theorem Run.next_congr {inp inp' : InputStream} {r : Run}
    (h : inp'.transfer r.given = inp.transfer r.given) : r.next inp' = r.next inp := by
  have hsupply : r.supply inp' = r.supply inp := by rw [Run.supply, Run.supply, h]
  rw [Run.next, Run.next, hsupply]

/-- Settles O57: each step asks for the transfer at the number of bytes handed over before it, which is
not above the number at the end. -/
theorem aRunSeesOnlyTheBytesHandedOver : Obligations.ARunSeesOnlyTheBytesHandedOver := by
  intro inp inp' k r hagree
  induction k with
  | zero => rfl
  | succ k ih =>
    rw [Run.after_step] at hagree
    have hle := Run.given_le_next inp (r.after inp k)
    rw [Run.after_step, Run.after_step, ih fun j hj => hagree j (hj.trans hle),
      Run.next_congr (hagree _ hle)]

/-! ### A finite stream delivered at reset (R193) -/

/-- The core alone, with what the host still has of the stream delivered and the end behind it, for a run
that is handed the stream as INP asks: the run holds no byte back, and has the end only behind the last one. -/
structure DeliveredAhead (stream : List Byte) (r : Run) (s : State) : Prop where
  core : s = r.core.setInput { pending := stream.drop r.given, ended := true }
  pending : r.core.input.pending = []
  ended : r.core.input.ended = true → stream.drop r.given = []

section
variable {stream : List Byte} {r : Run} {s : State}

theorem InputStream.transfer_finite_end {n : Nat} (h : stream.drop n = []) :
    (InputStream.finite stream).transfer n = some .endOfInput := by
  rw [transfer, ← List.head?_drop, h]
  rfl

theorem InputStream.transfer_finite_byte {n : Nat} {b : Byte} {rest : List Byte}
    (h : stream.drop n = b :: rest) :
    (InputStream.finite stream).transfer n = some (.byte b) := by
  rw [transfer, ← List.head?_drop, h]
  rfl

/-- A step that executes no INP keeps the correspondence: neither side looks at its input. -/
theorem DeliveredAhead.next_of_not_inp (h : DeliveredAhead stream r s)
    (hi : ∀ c, r.core.Executes → r.core.nextInstr ≠ .inp c) :
    DeliveredAhead stream (r.next (.finite stream)) (stepState s) := by
  obtain ⟨rfl, hp, he⟩ := h
  obtain ⟨t, ht⟩ := everyStepAnswersANextState r.core
  have hwait : r.core.awaitsInput = false := by
    rw [← Bool.not_eq_true, State.awaitsInput_iff]
    rintro ⟨hexec, c, hc, _⟩
    exact hi c hexec hc
  have hsupply := Run.supply_of_not_awaits (inp := .finite stream) hwait
  have hahead := step_setInput hi { pending := stream.drop r.given, ended := true }
  rw [ht] at hahead
  have hinput := step_input_eq hi ht
  rw [stepState_eq hahead, Run.next_eq (t := t) (by rw [hsupply]; exact ht), hsupply]
  exact ⟨rfl, hinput ▸ hp, hinput ▸ he⟩

/-- An INP keeps the correspondence: both sides take the first byte the host still has, or the end. -/
theorem DeliveredAhead.next_of_inp (h : DeliveredAhead stream r s) {c : RegId}
    (hexec : r.core.Executes) (hc : r.core.nextInstr = .inp c) :
    DeliveredAhead stream (r.next (.finite stream)) (stepState s) := by
  obtain ⟨rfl, hp, he⟩ := h
  have hstep (inp : Input) : step (r.core.setInput inp) = exec (.inp c) (r.core.setInput inp) :=
    step_eq_exec (s := r.core.setInput inp) hexec hc
  cases hend : r.core.input.ended with
  | true =>
    have hwait : r.core.awaitsInput = false := by simp [State.awaitsInput, hend]
    have hsupply := Run.supply_of_not_awaits (inp := .finite stream) hwait
    have hcore := (hstep r.core.input).trans (exec_inp_of_end hp hend)
    have hahead := (hstep { pending := stream.drop r.given, ended := true }).trans
      (exec_inp_of_end (he hend) rfl)
    rw [stepState_eq hahead, Run.next_eq (by rw [hsupply]; exact hcore), hsupply]
    exact ⟨rfl, hp, he⟩
  | false =>
    have hnext := Run.next_of_holds (.finite stream) hexec hc ⟨hp, hend⟩
    cases hleft : stream.drop r.given with
    | nil =>
      rw [hnext, InputStream.transfer_finite_end hleft,
        stepState_eq ((hstep _).trans (exec_inp_of_end rfl rfl))]
      exact ⟨by rw [Run.take, hleft]; rfl, hp, fun _ => hleft⟩
    | cons b rest =>
      have hrest : stream.drop (r.given + 1) = rest := by
        rw [← List.drop_drop, hleft]
        rfl
      rw [hnext, InputStream.transfer_finite_byte hleft,
        stepState_eq ((hstep _).trans (exec_inp_of_byte rfl))]
      exact ⟨by rw [Run.take, hrest]; rfl, hp, fun hended => absurd (hend.symm.trans hended) nofun⟩

theorem DeliveredAhead.next (h : DeliveredAhead stream r s) :
    DeliveredAhead stream (r.next (.finite stream)) (stepState s) := by
  by_cases hi : ∃ c, r.core.Executes ∧ r.core.nextInstr = .inp c
  · obtain ⟨c, hexec, hc⟩ := hi
    exact h.next_of_inp hexec hc
  · exact h.next_of_not_inp fun c hexec hc => hi ⟨c, hexec, hc⟩

theorem DeliveredAhead.after (h : DeliveredAhead stream r s) (k : Nat) :
    DeliveredAhead stream (r.after (.finite stream) k) (runSteps k s) := by
  induction k with
  | zero => exact h
  | succ k ih =>
    rw [Run.after_step, runSteps_step]
    exact ih.next

/-- The load of a program with the whole stream delivered is that of the run with nothing handed over. -/
theorem DeliveredAhead.start {limit : Config.StorageLimit} {bytes : List Byte}
    (hr : Run.start limit bytes = some r)
    (hs : State.boot limit bytes { pending := stream, ended := true } = some s) :
    DeliveredAhead stream r s := by
  obtain ⟨u, hu, rfl⟩ := Option.map_eq_some_iff.1 hr
  obtain ⟨d, hd, rfl⟩ := Option.map_eq_some_iff.1 hu
  obtain ⟨d', hd', rfl⟩ := Option.map_eq_some_iff.1 hs
  cases hd.symm.trans hd'
  exact ⟨rfl, rfl, fun h => nomatch h⟩

end

/-- Settles O58: the correspondence holds after the load and every step keeps it. -/
theorem aFiniteStreamMayBeDeliveredAtReset : Obligations.AFiniteStreamMayBeDeliveredAtReset :=
  fun _ _ _ _ _ hr hs k => ((DeliveredAhead.start hr hs).after k).core

end Sys2Proof.Machine

/-! SUPPORT. Control: what PRG answers by the register of the array, and the pc after an instruction that
completes (O14, O19, O20, O27). -/

namespace Sys2Proof

/-! ### Decoding by opcode -/

section
variable {w : Word}

theorem decode_of_opcode_seven (h : opcodeOf w = 7) : decode w = .hlt := by
  simp only [decode, h]

theorem decode_of_opcode_twelve (h : opcodeOf w = 12) : decode w = .prg (fieldB w) (fieldC w) := by
  simp only [decode, h]

theorem decode_of_opcode_fourteen (h : opcodeOf w = 14) : decode w = .invalid14 := by
  simp only [decode, h]

theorem decode_of_opcode_fifteen (h : opcodeOf w = 15) : decode w = .invalid15 := by
  simp only [decode, h]

end

end Sys2Proof

namespace Sys2Proof.Machine

/-! ### What PRG answers -/

section
variable {s : State} {b : RegId} {d : Descriptor}

theorem exec_prg_of_eq_zero (c : RegId) (h0 : s.reg b = 0) :
    exec (.prg b c) s = .next (s.jump (s.reg c)) :=
  if_neg fun hn => (isNonzero_iff _).1 hn h0

/-- PRG of an active array is decided by whether the copy fits in place of the image (R66, R201). -/
theorem exec_prg_of_find (c : RegId) (h0 : s.reg b ≠ 0) (hd : s.mem.find (s.reg b) = some d) :
    exec (.prg b c) s =
      if s.fits (s.mem.used + d.length.toNat - s.mem.image.length.toNat) then
        .next ((s.setMem (s.mem.setImage d)).jump (s.reg c))
      else .next (s.advance.setStatus (.faulted .allocExhausted)) := by
  rcases execPrg_cases b c s with ⟨h, _⟩ | ⟨_, d', hd', hfits, e⟩ | ⟨_, hnone, _⟩ | ⟨_, d', hd', hx, e⟩
  · exact absurd h h0
  · cases hd'.symm.trans hd
    rw [if_pos hfits]
    exact e
  · cases hnone.symm.trans hd
  · cases hd'.symm.trans hd
    rw [(s.not_fits_iff _).2 hx]
    exact e

theorem exec_prg_of_room (c : RegId) (h0 : s.reg b ≠ 0) (hd : s.mem.find (s.reg b) = some d)
    (hroom : ¬ ExceedsStore s (s.mem.used + d.length.toNat - s.mem.image.length.toNat)) :
    exec (.prg b c) s = .next ((s.setMem (s.mem.setImage d)).jump (s.reg c)) :=
  (exec_prg_of_find c h0 hd).trans (if_pos ((s.fits_iff _).2 hroom))

theorem exec_prg_exhausted (c : RegId) (h0 : s.reg b ≠ 0) (hd : s.mem.find (s.reg b) = some d)
    (hx : ExceedsStore s (s.mem.used + d.length.toNat - s.mem.image.length.toNat)) :
    exec (.prg b c) s = .next (s.advance.setStatus (.faulted .allocExhausted)) :=
  (exec_prg_of_find c h0 hd).trans (if_neg fun hfits => (s.fits_iff _).1 hfits hx)

end

/-- Settles O19: identifier 0 and the array copied refer to one descriptor after the PRG. -/
theorem prgInstallsProgramAndJumps : Obligations.PrgInstallsProgramAndJumps := by
  refine ⟨fun b c => (encodeR_toNat (by decide) 0 b c).trans (by simp),
    fun _ => decode_of_opcode_twelve,
    fun b c s h0 => ⟨_, exec_prg_of_eq_zero c h0, rfl, rfl, fun _ => rfl, .refl s⟩,
    fun b c s n h0 hn hroom => ?_,
    fun b c s _ ha => ⟨_, exec_prg_inactive c ha, faultTaken_advance _ s⟩,
    fun b c s n h0 hn hx => ?_⟩
  · obtain ⟨d, hd, rfl⟩ := Memory.len_eq_some_iff.1 hn
    have hcopy : (s.mem.setImage d).find 0 = s.mem.find (s.reg b) := hd.symm
    exact ⟨_, exec_prg_of_room c h0 hd hroom, rfl, rfl, (Memory.sameArray_of_find hcopy).2,
      fun _ hid => Memory.sameArray_of_find (Memory.setImage_find_other _ _ hid), rfl, fun _ => rfl,
      ⟨rfl, rfl⟩, ⟨rfl, rfl⟩, ⟨rfl, rfl⟩⟩
  · obtain ⟨d, hd, rfl⟩ := Memory.len_eq_some_iff.1 hn
    exact ⟨_, exec_prg_exhausted c h0 hd hx, faultTaken_advance _ s⟩

/-! ### The pc after an instruction that completes (R203) -/

/-- A PRG that takes no fault jumps to `R[C]`, whether or not it replaces the image. -/
theorem Ran.prg_pc {b c : RegId} {s t : State} (h : Ran (.prg b c) s t)
    (hgoes : ∀ k, t.status ≠ .faulted k) : t.pc = s.reg c := by
  cases h with
  | write hw => cases hw
  | jump _ => rfl
  | install _ _ _ => rfl
  | fault _ => exact absurd rfl (hgoes _)
  | hold hh => exact hh.elim

/-- Settles O27: the jump of a PRG, and the increment every other instruction makes. -/
theorem pcGoesOnOrJumps : Obligations.PcGoesOnOrJumps := by
  intro s t hexec h hrun hhold
  have hran : Ran s.nextInstr s t := exec_ran (step_of_executes hexec ▸ h)
  constructor
  · intro b c hprg
    rw [hprg] at hran
    exact hran.prg_pc fun k => by simp [hrun]
  · intro hnot
    rcases hran.pc_cases with hh | hpc | ⟨⟨b, c, hprg⟩, _⟩
    · exact absurd hh hhold
    · exact hpc
    · exact absurd hprg (hnot b c)

/-! ### HLT and the undefined opcodes -/

/-- Settles O14: the state after HLT is that of an ended run, which no step changes. -/
theorem hltHalts : Obligations.HltHalts := by
  refine ⟨by decide, fun _ => decode_of_opcode_seven, fun s => ?_⟩
  have hended : (s.advance.setStatus .halted).status ≠ .running := by simp
  exact ⟨_, rfl, rfl, rfl, fun _ => rfl, .refl s, step_of_ended hended⟩

/-- Settles O20: both opcodes are the illegal ones. -/
theorem undefinedOpcodesRaiseInvalidInstruction :
    Obligations.UndefinedOpcodesRaiseInvalidInstruction :=
  ⟨fun _ => decode_of_opcode_fourteen, fun _ => decode_of_opcode_fifteen,
    fun s => ⟨_, exec_of_not_wellFormed (by decide) s, faultTaken_advance _ s⟩,
    fun s => ⟨_, exec_of_not_wellFormed (by decide) s, faultTaken_advance _ s⟩⟩

end Sys2Proof.Machine

/-! SUPPORT. The fault kinds and their conditions: every way an instruction can end is what it answers, a
fault is taken exactly under its condition, and which endings a finite store leaves (O23, O24, O49, O53). -/

namespace Sys2Proof.Machine

/-! ### The instruction answers every ending whose conditions hold -/

section
variable {i : Instr} {s t : State} {k : Fault}

/-- An instruction whose condition for a fault holds takes that fault; the cases are the rows of
`FaultCond` (R220). -/
theorem exec_of_faultCond (h : FaultCond i k s) :
    exec i s = .next (s.advance.setStatus (.faulted k)) := by
  unfold FaultCond at h
  split at h
  · rfl
  · rfl
  · exact exec_lda_outside _ h
  · exact exec_sta_outside _ h
  · exact exec_del_bad h
  · exact exec_div_of_eq_zero _ _ h
  · exact exec_prg_inactive _ h.2
  · exact exec_out_above h
  · exact exec_new_exhausted _ h
  · obtain ⟨h0, n, hn, hx⟩ := h
    obtain ⟨d, hd, rfl⟩ := Memory.len_eq_some_iff.1 hn
    exact exec_prg_exhausted _ h0 hd hx
  · exact h.elim

theorem WritesValue.exec_eq {a : RegId} {v : Word} (h : WritesValue i s a v) :
    exec i s = .next (s.advance.setReg a v) := by
  cases h with
  | mov hc => rw [exec_mov, if_pos hc]
  | lda hd hi => exact exec_lda_of_read _ (Memory.read_inside hd hi)
  | div hc => exact exec_div_of_ne_zero _ _ hc
  | _ => rfl

/-- The converse of `exec_ran`: the conditions of each ending decide the answer. -/
theorem Ran.exec_eq (h : Ran i s t) : exec i s = .next t := by
  cases h with
  | write hw => exact hw.exec_eq
  | movSkip hc =>
    rw [exec_mov, if_neg (not_not.2 hc)]
    exact congrArg _ (s.advance.setReg_reg _)
  | store hd hi => rw [exec, execSta, Memory.write_inside _ hd hi]
  | newReuse hf hs =>
    rw [exec_new_of_room _ (.inl (by simp [hf])) ((s.fits_iff _).1 hs)]
    simp [State.allocated, State.nextId, State.nextFree, State.nextCap, hf]
  | newGrow hf hc hs =>
    rw [exec_new_of_room _ (.inr hc) ((s.fits_iff _).1 hs)]
    simp [State.allocated, State.nextId, State.nextFree, State.nextCap, hf]
  | del h0 ha => exact exec_del_of_active h0 ha
  | out hb hr => exact exec_out_of_ready hb hr
  | inpByte hp => exact exec_inp_of_byte hp
  | inpEnd hp he => exact exec_inp_of_end hp he
  | hlt => rfl
  | jump h0 => exact exec_prg_of_eq_zero _ h0
  | install h0 hd hs => exact exec_prg_of_room _ h0 hd ((s.fits_iff _).1 hs)
  | fault hk => exact exec_of_faultCond hk
  | hold hh => exact exec_of_holds hh

/-! ### Faults and their conditions (R220) -/

/-- Of the endings of an instruction only the fault gives a running core a fault status. -/
theorem Ran.faultCond (h : Ran i s t) (hrun : s.status = .running) (hk : t.status = .faulted k) :
    FaultCond i k s := by
  have hgoes : s.status ≠ .faulted k := by simp [hrun]
  cases h with
  | fault hcond => exact Status.faulted.inj hk ▸ hcond
  | hlt => cases hk
  | _ => exact absurd hk hgoes

theorem exec_faulted_iff (hrun : s.status = .running) (h : exec i s = .next t) :
    t.status = .faulted k ↔ FaultCond i k s := by
  refine ⟨(exec_ran h).faultCond hrun, fun hcond => ?_⟩
  cases (exec_of_faultCond hcond).symm.trans h
  rfl

/-- No instruction raises pc-out-of-bounds: it is the fetch's own (R228). -/
theorem not_faultCond_pcOutOfBounds (i : Instr) (s : State) : ¬ FaultCond i .pcOutOfBounds s := by
  cases i <;> exact id

end

/-- Settles O23: the fault of the fetch, and the faults of the instruction executed. -/
theorem faultsExactlyUnderTheirConditions : Obligations.FaultsExactlyUnderTheirConditions := by
  refine ⟨fun i s t k => exec_faulted_iff, fun s t k hrun h => ?_⟩
  rcases step_ran h with ⟨⟨_, hpc⟩, hexec, _⟩ | ⟨_, hpc, rfl⟩ | ⟨hended, _⟩
  · simp [exec_faulted_iff hrun hexec, hpc, hpc.not_ge]
  · simp [hpc, hpc.not_gt, eq_comm]
  · exact absurd hrun hended

/-- Settles O24: the state after a fault is the one before with the status, and in execute the pc,
changed. -/
theorem aFaultWritesNothing : Obligations.AFaultWritesNothing := by
  intro s t k hrun h hk
  have hstays : step t = .next t := step_of_ended (by simp [hk])
  rcases step_ran h with ⟨_, hexec, _⟩ | ⟨_, _, rfl⟩ | ⟨hended, _⟩
  · have hcond : FaultCond s.nextInstr k s := (exec_faulted_iff hrun hexec).1 hk
    have hne : k ≠ .pcOutOfBounds := by
      rintro rfl
      exact not_faultCond_pcOutOfBounds _ _ hcond
    cases (exec_of_faultCond hcond).symm.trans hexec
    exact ⟨(if_neg hne).symm, fun _ => rfl, .advance s, hstays⟩
  · cases hk
    exact ⟨rfl, fun _ => rfl, .refl s, hstays⟩
  · exact absurd hrun hended

/-! ### The endings a finite store leaves (R66, R229) -/

section
variable {i : Instr} {s t : State}

/-- Only alloc-exhausted looks at the size of the store. -/
theorem FaultCond.withoutLimit {k : Fault} (h : FaultCond i k s) (hk : k ≠ .allocExhausted) :
    FaultCond i k s.withoutLimit := by
  cases k with
  | allocExhausted => exact absurd rfl hk
  | _ => cases i <;> exact h

theorem WritesValue.withoutLimit {a : RegId} {v : Word} (h : WritesValue i s a v) :
    WritesValue i s.withoutLimit a v := by
  cases h with
  | mov hc => exact .mov (s := s.withoutLimit) hc
  | ldi => exact .ldi
  | lda hd hi => exact .lda (s := s.withoutLimit) hd hi
  | add => exact .add (s := s.withoutLimit)
  | mul => exact .mul (s := s.withoutLimit)
  | div hc => exact .div (s := s.withoutLimit) hc
  | nan => exact .nan (s := s.withoutLimit)

/-- An ending other than alloc-exhausted is an ending of the machine with an unbounded store: what fits
a finite store fits that one, and no other condition speaks of the store. -/
theorem Ran.withoutLimit (h : Ran i s t) (hk : t.status ≠ .faulted .allocExhausted) :
    Ran i s.withoutLimit t.withoutLimit := by
  cases h with
  | write hw => exact .write hw.withoutLimit
  | movSkip hc => exact .movSkip (s := s.withoutLimit) hc
  | store hd hi => exact .store (s := s.withoutLimit) hd hi
  | newReuse hf _ => exact .newReuse (s := s.withoutLimit) hf rfl
  | newGrow hf hc _ => exact .newGrow (s := s.withoutLimit) hf hc rfl
  | del h0 ha => exact .del (s := s.withoutLimit) h0 ha
  | out hb hr => exact .out (s := s.withoutLimit) hb hr
  | inpByte hp => exact .inpByte (s := s.withoutLimit) hp
  | inpEnd hp he => exact .inpEnd (s := s.withoutLimit) hp he
  | hlt => exact .hlt
  | jump h0 => exact .jump (s := s.withoutLimit) h0
  | install h0 hd _ => exact .install (s := s.withoutLimit) h0 hd rfl
  | fault hcond => exact .fault (hcond.withoutLimit fun e => hk (e ▸ rfl))
  | hold hh => exact .hold (s := s.withoutLimit) hh

end

/-- Settles O49: each ending of the step is one of the machine with an unbounded store. -/
theorem aFiniteStoreOnlyAddsExhaustion : Obligations.AFiniteStoreOnlyAddsExhaustion := by
  intro s t h hk
  rcases step_ran h with ⟨hexec, _, hran⟩ | ⟨hrun, hpc, rfl⟩ | ⟨hended, rfl⟩
  · exact (step_of_executes (s := s.withoutLimit) hexec).trans (hran.withoutLimit hk).exec_eq
  · exact step_of_pc_outside (s := s.withoutLimit) hrun hpc
  · exact step_of_ended (s := t.withoutLimit) hended

/-! ### The status codes (R221) -/

@[simp] theorem Status.code_running : Status.running.code = none := rfl

@[simp] theorem Status.code_halted : Status.halted.code = some 0 := rfl

/-- The code of a fault kind is its place in the table of R220, counted from 1. -/
@[simp] theorem Status.code_faulted (k : Fault) :
    (Status.faulted k).code = some (k.ctorIdx + 1) := by
  cases k <;> rfl

theorem Fault.ctorIdx_injective : Function.Injective Fault.ctorIdx :=
  Function.LeftInverse.injective Fault.ofNat_ctorIdx

theorem Fault.ctorIdx_lt (k : Fault) : k.ctorIdx < 8 := by
  cases k <;> decide

theorem Status.code_eq_none_iff {x : Status} : x.code = none ↔ x = .running := by
  cases x <;> simp

theorem Status.code_eq_zero_iff {x : Status} : x.code = some 0 ↔ x = .halted := by
  cases x <;> simp

theorem Status.code_injective : Function.Injective Status.code := by
  intro x y h
  cases y with
  | running => exact code_eq_none_iff.1 h
  | halted => exact code_eq_zero_iff.1 h
  | faulted l =>
    cases x with
    | faulted k => exact congrArg _ (Fault.ctorIdx_injective (by simpa using h))
    | _ => simp at h

/-- Settles O53: the codes of the faults are the places 1 to 8 of a table of eight. -/
theorem statusCodesTellStatusesApart : Obligations.StatusCodesTellStatusesApart := by
  refine ⟨fun _ => ⟨Status.code_eq_none_iff, Status.code_eq_zero_iff⟩,
    fun _ _ h => Status.code_injective h, fun k n h => ?_⟩
  have hlt := k.ctorIdx_lt
  rw [Status.code_faulted, Option.some.injEq] at h
  omega

end Sys2Proof.Machine

/-! SUPPORT. The load of a program: the words of a stream of bytes, when a load is refused, and what reset
with a program answers (O50, O51, O52). -/

namespace Sys2Proof.Machine

/-! ### The words of a program stream (R252) -/

theorem wordOfBytes_toNat (b0 b1 b2 b3 : Byte) : (wordOfBytes b0 b1 b2 b3).toNat =
    b0.toNat * 2 ^ 24 + b1.toNat * 2 ^ 16 + b2.toNat * 2 ^ 8 + b3.toNat := by
  rw [wordOfBytes, BitVec.toNat_ofNat]
  omega

/-- Four bytes make a word and the 1 to 3 trailing ones make none. -/
theorem wordsOfBytes_length : ∀ bytes, (wordsOfBytes bytes).length = bytes.length / 4
  | _ :: _ :: _ :: _ :: rest => by
    rw [wordsOfBytes, List.length_cons, wordsOfBytes_length rest]
    simp only [List.length_cons]
    omega
  | [] | [_] | [_, _] | [_, _, _] => by simp [wordsOfBytes]

/-- Word `k` is bytes `4k` to `4k + 3`, the first one on top. -/
theorem wordsOfBytes_getD : ∀ bytes k, k < bytes.length / 4 → (wordsOfBytes bytes).getD k 0 =
    wordOfBytes (bytes.getD (4 * k) 0) (bytes.getD (4 * k + 1) 0) (bytes.getD (4 * k + 2) 0)
      (bytes.getD (4 * k + 3) 0)
  | _ :: _ :: _ :: _ :: _, 0, _ => rfl
  | _ :: _ :: _ :: _ :: rest, k + 1, h =>
    wordsOfBytes_getD rest k (by simp only [List.length_cons] at h; omega)
  | [], _, h | [_], _, h | [_, _], _, h | [_, _, _], _, h => absurd h (by simp)

/-! ### The load (R252, R253) -/

section
variable {limit : Config.StorageLimit} {bytes : List Byte}

theorem limitAllows_eq_false_iff {n : Nat} :
    limitAllows limit n = false ↔ ∃ m, limit = .words m ∧ m < n := by
  cases limit <;> simp [limitAllows]

/-- A load that is accepted makes the array of the words of the stream. -/
theorem loadImage_eq_some_iff {d : Descriptor} : loadImage limit bytes = some d ↔
    (bytes.length / 4 ≤ 2 ^ 32 - 1 ∧ limitAllows limit (bytes.length / 4) = true) ∧
      Descriptor.ofWords (wordsOfBytes bytes) = d := by
  simp only [loadImage, wordsOfBytes_length, Option.ite_none_right_eq_some, Option.some.injEq,
    Config.maxImageWords]

theorem loadImage_eq_none_iff : loadImage limit bytes = none ↔
    2 ^ 32 - 1 < bytes.length / 4 ∨ limitAllows limit (bytes.length / 4) = false := by
  simp only [loadImage, wordsOfBytes_length, ite_eq_right_iff, reduceCtorEq, imp_false,
    Config.maxImageWords, Decidable.not_and_iff_or_not, Nat.not_le, Bool.not_eq_true]

end

/-- Settles O51: the load makes the words of the stream, whose number is `⌊L/4⌋`, and refuses by that
number alone. -/
theorem loadReadsBigEndianWords : Obligations.LoadReadsBigEndianWords := by
  refine ⟨fun limit bytes d h => ?_, fun limit bytes => ?_⟩
  · obtain ⟨⟨hlen, _⟩, rfl⟩ := loadImage_eq_some_iff.1 h
    refine ⟨?_, fun k hk => ?_⟩
    · rw [Descriptor.ofWords, BitVec.toNat_ofNat, wordsOfBytes_length]
      omega
    · rw [Descriptor.ofWords_word, wordsOfBytes_getD bytes k hk, wordOfBytes_toNat]
  · rw [loadImage_eq_none_iff, limitAllows_eq_false_iff]

/-! ### Reset with a program (R36, R250) -/

/-- Settles O50: nothing of the state before is left but the size of its store. -/
theorem resetClearsEverything : Obligations.ResetClearsEverything := by
  intro s bytes inp t h
  obtain ⟨d, hd, rfl⟩ := Option.map_eq_some_iff.1 h
  exact ⟨fun r => Vector.getElem_replicate r.isLt, rfl, hd, Memory.active_of_no_arrays rfl, rfl,
    rfl, rfl, rfl, rfl⟩

/-! ### The empty program (R254) -/

/-- Fewer than four bytes are the empty program, which every store holds. -/
theorem loadImage_of_short (limit : Config.StorageLimit) {bytes : List Byte} (h : bytes.length < 4) :
    loadImage limit bytes = some Descriptor.empty := by
  have hzero : bytes.length / 4 = 0 := Nat.div_eq_of_lt h
  have hwords : wordsOfBytes bytes = [] :=
    List.length_eq_zero_iff.1 ((wordsOfBytes_length bytes).trans hzero)
  rw [loadImage_eq_some_iff, hzero, hwords]
  refine ⟨⟨Nat.zero_le _, ?_⟩, rfl⟩
  cases limit <;> simp [limitAllows]

/-- Settles O52: the first fetch finds the pc 0 outside the image of no words. -/
theorem anEmptyProgramFaultsAtOnce : Obligations.AnEmptyProgramFaultsAtOnce := by
  intro limit bytes inp h
  refine ⟨_, _, congrArg (Option.map _) (loadImage_of_short limit h), ?_,
    step_of_pc_outside rfl le_rfl, rfl, rfl, rfl, rfl⟩
  rintro rfl rfl
  rfl

end Sys2Proof.Machine

/-! SUPPORT. What the host observes of a run: an ended run stays as it is, and growing outputs have exactly
one limit (O54). -/

namespace Sys2Proof.Machine

/-! ### The limit of growing outputs (R257) -/

/-- The byte at index `n` of a finite or infinite sequence. -/
def ByteSeq.get? : ByteSeq → Nat → Option Byte
  | .finite bytes, n => bytes[n]?
  | .infinite byteAt, n => some (byteAt n)

/-- A sequence is its bytes: a finite one has none at its length, an infinite one has one everywhere. -/
theorem ByteSeq.ext_get? {e e' : ByteSeq} (h : ∀ n, e.get? n = e'.get? n) : e = e' := by
  cases e with
  | finite bytes =>
    cases e' with
    | finite bytes' => exact congrArg _ (List.ext_getElem? h)
    | infinite byteAt => simpa [get?] using h bytes.length
  | infinite byteAt =>
    cases e' with
    | finite bytes => simpa [get?] using h bytes.length
    | infinite byteAt' => exact congrArg _ (funext fun n => Option.some.inj (h n))

section
variable {outsAt : Nat → List Byte}

/-- Outputs of every length emit an infinite sequence. -/
theorem emitsInTheLimit_of_unbounded (h : ∀ n, ∃ k, n < (outsAt k).length) :
    ∃ byteAt, EmitsInTheLimit outsAt (.infinite byteAt) := by
  choose k hk using h
  exact ⟨fun n => (outsAt (k n))[n]'(hk n), fun n => ⟨k n, List.getElem?_eq_getElem (hk n)⟩⟩

variable (hgrow : ∀ j k, outsAt j <+: outsAt (j + k))
include hgrow

/-- A byte once emitted stays where it is. -/
theorem getElem?_of_grow {n j : Nat} {b : Byte} (k : Nat) (h : (outsAt j)[n]? = some b) :
    (outsAt (j + k))[n]? = some b := by
  obtain ⟨hlt, rfl⟩ := List.getElem?_eq_some_iff.1 h
  exact List.prefix_iff_getElem?.1 (hgrow j k) n hlt

/-- The bytes of the limit are the bytes ever emitted. -/
theorem EmitsInTheLimit.get?_eq_some_iff {e : ByteSeq} (he : EmitsInTheLimit outsAt e) {n : Nat}
    {b : Byte} : e.get? n = some b ↔ ∃ k, (outsAt k)[n]? = some b := by
  cases e with
  | finite bytes =>
    obtain ⟨m, hm⟩ := he
    refine ⟨fun h => ⟨m, by rwa [hm m le_rfl]⟩, fun ⟨k, hk⟩ => ?_⟩
    have hlater := getElem?_of_grow hgrow m hk
    rwa [hm _ (Nat.le_add_left m k)] at hlater
  | infinite byteAt =>
    obtain ⟨j, hj⟩ := he n
    refine ⟨fun h => ⟨j, hj.trans h⟩, fun ⟨k, hk⟩ => ?_⟩
    have hlater := getElem?_of_grow hgrow k hj
    rw [Nat.add_comm] at hlater
    exact hlater.symm.trans (getElem?_of_grow hgrow j hk)

/-- Growing outputs have at most one limit. -/
theorem EmitsInTheLimit.unique {e e' : ByteSeq} (he : EmitsInTheLimit outsAt e)
    (he' : EmitsInTheLimit outsAt e') : e = e' :=
  ByteSeq.ext_get? fun _ => Option.ext fun _ =>
    (he.get?_eq_some_iff hgrow).trans (he'.get?_eq_some_iff hgrow).symm

/-- Outputs whose length is bounded are the longest one from some step on. -/
theorem emitsInTheLimit_of_bounded {m : Nat} (hm : ∀ k, (outsAt k).length ≤ m) :
    ∃ bytes, EmitsInTheLimit outsAt (.finite bytes) := by
  have hbdd : BddAbove (Set.range fun k => (outsAt k).length) :=
    ⟨m, Set.forall_mem_range.2 hm⟩
  obtain ⟨j, hj⟩ := Nat.sSup_mem (Set.range_nonempty _) hbdd
  refine ⟨outsAt j, j, fun k hk => ?_⟩
  obtain ⟨i, rfl⟩ := Nat.exists_eq_add_of_le hk
  have hle : (outsAt (j + i)).length ≤ (outsAt j).length :=
    (le_csSup hbdd ⟨j + i, rfl⟩).trans hj.ge
  exact ((hgrow j i).eq_of_length_le hle).symm

/-- Growing outputs have a limit. -/
theorem emitsInTheLimit_exists : ∃ e, EmitsInTheLimit outsAt e := by
  by_cases h : ∀ n, ∃ k, n < (outsAt k).length
  · obtain ⟨byteAt, he⟩ := emitsInTheLimit_of_unbounded h
    exact ⟨_, he⟩
  · push Not at h
    obtain ⟨m, hm⟩ := h
    obtain ⟨bytes, he⟩ := emitsInTheLimit_of_bounded hgrow hm
    exact ⟨_, he⟩

end

/-! ### An ended run (R29, R116) -/

section
variable {inp : InputStream} {r : Run}

/-- Neither the host's turn nor a step changes an ended run. -/
theorem Run.next_of_ended (h : r.core.status ≠ .running) : r.next inp = r := by
  have hwait : r.core.awaitsInput = false := by simp [State.awaitsInput, h]
  have hsupply := Run.supply_of_not_awaits (inp := inp) hwait
  rw [Run.next_eq (t := r.core) (by rw [hsupply]; exact step_of_ended h), hsupply]

theorem Run.after_of_ended (h : r.core.status ≠ .running) (k : Nat) : r.after inp k = r := by
  induction k with
  | zero => rfl
  | succ k ih => rw [Run.after_succ, Run.next_of_ended h, ih]

/-- Two points of a run at which it has ended are the same. -/
theorem Run.after_eq_of_ended {j k : Nat} (hj : (r.after inp j).core.status ≠ .running)
    (hk : (r.after inp k).core.status ≠ .running) : r.after inp j = r.after inp k := by
  rw [← Run.after_of_ended hj k, ← Run.after_add, Nat.add_comm, Run.after_add,
    Run.after_of_ended hk j]

end

theorem Status.ne_running_of_code {x : Status} {code : Nat} (h : x.code = some code) :
    x ≠ .running := by
  rintro rfl
  cases h

/-! ### The observation (R257) -/

section
variable {limit : Config.StorageLimit} {bytes : List Byte} {inp : InputStream} {r : Run}

/-- A run of a loaded program ends or diverges. -/
theorem RunIs.exists (hr : Run.start limit bytes = some r) : ∃ o, RunIs limit bytes inp o := by
  by_cases hend : ∃ k, (r.after inp k).core.status ≠ .running
  · obtain ⟨k, hk⟩ := hend
    obtain ⟨code, hcode⟩ := Option.ne_none_iff_exists'.1 (mt Status.code_eq_none_iff.1 hk)
    exact ⟨.ends (r.after inp k).core.outs code, r, k, hr, hcode, rfl⟩
  · push Not at hend
    obtain ⟨e, he⟩ := emitsInTheLimit_exists (outputIsNeverTakenBack.1 inp r)
    exact ⟨.diverges e, r, hr, hend, he⟩

/-- A run has one end: it stays there. -/
theorem Ends.unique {outs outs' : List Byte} {code code' : Nat} (h : Ends limit bytes inp outs code)
    (h' : Ends limit bytes inp outs' code') : outs = outs' ∧ code = code' := by
  obtain ⟨r, k, hr, hcode, rfl⟩ := h
  obtain ⟨r', k', hr', hcode', rfl⟩ := h'
  cases hr.symm.trans hr'
  have hsame := Run.after_eq_of_ended (Status.ne_running_of_code hcode)
    (Status.ne_running_of_code hcode')
  rw [hsame] at hcode ⊢
  exact ⟨rfl, Option.some.inj (hcode.symm.trans hcode')⟩

theorem Ends.not_diverges {outs : List Byte} {code : Nat} {e : ByteSeq}
    (h : Ends limit bytes inp outs code) : ¬ Diverges limit bytes inp e := by
  rintro ⟨r', hr', hrun, _⟩
  obtain ⟨r, k, hr, hcode, _⟩ := h
  cases hr.symm.trans hr'
  exact Status.ne_running_of_code hcode (hrun k)

/-- A run that goes on for ever emits one sequence. -/
theorem Diverges.unique {e e' : ByteSeq} (h : Diverges limit bytes inp e)
    (h' : Diverges limit bytes inp e') : e = e' := by
  obtain ⟨r, hr, _, he⟩ := h
  obtain ⟨r', hr', _, he'⟩ := h'
  cases hr.symm.trans hr'
  exact he.unique (outputIsNeverTakenBack.1 inp r) he'

theorem RunIs.unique {o o' : Observation} (h : RunIs limit bytes inp o)
    (h' : RunIs limit bytes inp o') : o = o' := by
  cases o with
  | ends outs code =>
    cases o' with
    | ends outs' code' =>
      obtain ⟨rfl, rfl⟩ := Ends.unique h h'
      rfl
    | diverges e => exact absurd h' (Ends.not_diverges h)
  | diverges e =>
    cases o' with
    | ends outs code => exact absurd h (Ends.not_diverges h')
    | diverges e' => exact congrArg _ (Diverges.unique h h')

/-- Only a program that loads has an observation. -/
theorem RunIs.start_ne_none {o : Observation} (h : RunIs limit bytes inp o) :
    Run.start limit bytes ≠ none := by
  cases o with
  | ends outs code =>
    obtain ⟨r, _, hr, _⟩ := h
    exact Option.ne_none_iff_exists'.2 ⟨r, hr⟩
  | diverges e =>
    obtain ⟨r, hr, _⟩ := h
    exact Option.ne_none_iff_exists'.2 ⟨r, hr⟩

end

/-- Settles O54: a run ends, and then stays as it is, or goes on for ever, and its output has one limit. -/
theorem aRunHasOneResult : Obligations.ARunHasOneResult := by
  refine ⟨fun limit bytes inp r hr => ?_, fun limit bytes inp o hnone h => h.start_ne_none hnone⟩
  obtain ⟨o, ho⟩ := RunIs.exists (inp := inp) hr
  exact ⟨o, ho, fun _ h => h.unique ho⟩

end Sys2Proof.Machine
